-- ==== Sys2Proof/Word.lean ====
section
/-! DEFINITION. The word types of the machine (00_scope.md R8, R9): unsigned values of a stated width. -/

namespace Sys2Proof

/-- `u8` of R9: a register, a timer, a memory cell. -/
abbrev Byte := BitVec 8

/-- `u16` of R9: `I`, `pc`, `cip`, a stack entry, an instruction word. -/
abbrev Word := BitVec 16

/-- The 12-bit field `NNN` of R92. -/
abbrev Addr12 := BitVec 12

/-- A register number `X` or `Y` (R92, R94): every value 0..15 names a register. -/
abbrev RegNum := Fin 16

end Sys2Proof
end

