-- ==== Sys2Proof/Syntax.lean ====
section
/-! DEFINITION. The 34 instructions of 30_encoding.md R96, one constructor a row, with every operand field of its
format (R93), and the classes of words that are no instruction (R97). -/

namespace Sys2Proof

/-- An instruction. The constructors stand in the order of R96; the first words of each docstring are its pattern. -/
inductive Instr where
  /-- `00E0` CLS -/
  | cls
  /-- `00EE` RET -/
  | ret
  /-- `1NNN` JP NNN -/
  | jp (nnn : Addr12)
  /-- `2NNN` CALL NNN -/
  | call (nnn : Addr12)
  /-- `3XNN` SE Vx,NN -/
  | seImm (x : RegNum) (nn : Byte)
  /-- `4XNN` SNE Vx,NN -/
  | sneImm (x : RegNum) (nn : Byte)
  /-- `5XY0` SE Vx,Vy -/
  | seReg (x y : RegNum)
  /-- `6XNN` LD Vx,NN -/
  | ldImm (x : RegNum) (nn : Byte)
  /-- `7XNN` ADD Vx,NN -/
  | addImm (x : RegNum) (nn : Byte)
  /-- `8XY0` LD Vx,Vy -/
  | ldReg (x y : RegNum)
  /-- `8XY1` OR Vx,Vy -/
  | orReg (x y : RegNum)
  /-- `8XY2` AND Vx,Vy -/
  | andReg (x y : RegNum)
  /-- `8XY3` XOR Vx,Vy -/
  | xorReg (x y : RegNum)
  /-- `8XY4` ADD Vx,Vy -/
  | addReg (x y : RegNum)
  /-- `8XY5` SUB Vx,Vy -/
  | sub (x y : RegNum)
  /-- `8XY6` SHR Vx; the field Y is decoded and not used (R94, R170) -/
  | shr (x y : RegNum)
  /-- `8XY7` SUBN Vx,Vy -/
  | subn (x y : RegNum)
  /-- `8XYE` SHL Vx; the field Y is decoded and not used (R94, R172) -/
  | shl (x y : RegNum)
  /-- `9XY0` SNE Vx,Vy -/
  | sneReg (x y : RegNum)
  /-- `ANNN` LD I,NNN -/
  | ldI (nnn : Addr12)
  /-- `BXNN` JP Vx,NNN; X is the top nibble of NNN, the two fields overlap (R94, R148) -/
  | jpOff (x : RegNum) (nnn : Addr12)
  /-- `CXNN` RND Vx,NN -/
  | rnd (x : RegNum) (nn : Byte)
  /-- `DXYN` DRW Vx,Vy,N; `n` is the number of rows -/
  | drw (x y : RegNum) (n : Fin 16)
  /-- `EX9E` SKP Vx -/
  | skp (x : RegNum)
  /-- `EXA1` SKNP Vx -/
  | sknp (x : RegNum)
  /-- `FX07` LD Vx,DT -/
  | ldVxDt (x : RegNum)
  /-- `FX0A` LD Vx,K -/
  | ldVxK (x : RegNum)
  /-- `FX15` LD DT,Vx -/
  | ldDtVx (x : RegNum)
  /-- `FX18` LD ST,Vx -/
  | ldStVx (x : RegNum)
  /-- `FX1E` ADD I,Vx -/
  | addI (x : RegNum)
  /-- `FX29` LD F,Vx -/
  | ldF (x : RegNum)
  /-- `FX33` LD B,Vx -/
  | ldB (x : RegNum)
  /-- `FX55` LD [I],Vx -/
  | ldMemVx (x : RegNum)
  /-- `FX65` LD Vx,[I] -/
  | ldVxMem (x : RegNum)
deriving DecidableEq, Repr

/-- Why bytes are no instruction: the six classes of invalid words of R97, and a byte list too short to hold a word. -/
inductive DecodeError where
  /-- `0NNN` with NNN not 0x0E0 and not 0x0EE -/
  | group0
  /-- `5XYN` with N not 0 -/
  | group5
  /-- `8XYN` with N in 8, 9, A, B, C, D, F -/
  | group8
  /-- `9XYN` with N not 0 -/
  | group9
  /-- `EXNN` with NN not 0x9E and not 0xA1 -/
  | groupE
  /-- `FXNN` with NN not one of the nine sub-opcodes -/
  | groupF
  /-- fewer than two bytes (R90); the fetch never meets it, since R123 faults first -/
  | truncated
deriving DecidableEq, Repr

end Sys2Proof
end

