-- ==== Sys2Proof/Decode.lean ====
section
/-! DEFINITION. The instruction decoder (30_encoding.md R92, R95), total on any word and any bytes, the opcode map of
R96 as match and mask words, and the encoder written from the same table. -/

namespace Sys2Proof

/-! ## The six fields of R92 -/

/-- `opcode`, bits 15..12. -/
def fieldOpcode (w : Word) : Fin 16 := ⟨w.toNat / 4096, by have := w.isLt; omega⟩

/-- `X`, bits 11..8. -/
def fieldX (w : Word) : RegNum := ⟨w.toNat / 256 % 16, Nat.mod_lt _ (by decide)⟩

/-- `Y`, bits 7..4. -/
def fieldY (w : Word) : RegNum := ⟨w.toNat / 16 % 16, Nat.mod_lt _ (by decide)⟩

/-- `N`, bits 3..0. -/
def fieldN (w : Word) : Fin 16 := ⟨w.toNat % 16, Nat.mod_lt _ (by decide)⟩

/-- `NN`, bits 7..0. -/
def fieldNN (w : Word) : Byte := BitVec.ofNat 8 (w.toNat % 256)

/-- `NNN`, bits 11..0. -/
def fieldNNN (w : Word) : Addr12 := BitVec.ofNat 12 (w.toNat % 4096)

/-! ## Dispatch (R95) -/

/-- Group 0x0, by the whole of NNN. -/
def decodeGroup0 (w : Word) : Except DecodeError Instr :=
  if fieldNNN w = 0x0E0 then .ok .cls
  else if fieldNNN w = 0x0EE then .ok .ret
  else .error .group0

/-- Group 0x8, by N. -/
def decodeGroup8 (w : Word) : Except DecodeError Instr :=
  if fieldN w = 0x0 then .ok (.ldReg (fieldX w) (fieldY w))
  else if fieldN w = 0x1 then .ok (.orReg (fieldX w) (fieldY w))
  else if fieldN w = 0x2 then .ok (.andReg (fieldX w) (fieldY w))
  else if fieldN w = 0x3 then .ok (.xorReg (fieldX w) (fieldY w))
  else if fieldN w = 0x4 then .ok (.addReg (fieldX w) (fieldY w))
  else if fieldN w = 0x5 then .ok (.sub (fieldX w) (fieldY w))
  else if fieldN w = 0x6 then .ok (.shr (fieldX w) (fieldY w))
  else if fieldN w = 0x7 then .ok (.subn (fieldX w) (fieldY w))
  else if fieldN w = 0xE then .ok (.shl (fieldX w) (fieldY w))
  else .error .group8

/-- Group 0xE, by NN. -/
def decodeGroupE (w : Word) : Except DecodeError Instr :=
  if fieldNN w = 0x9E then .ok (.skp (fieldX w))
  else if fieldNN w = 0xA1 then .ok (.sknp (fieldX w))
  else .error .groupE

/-- Group 0xF, by NN. -/
def decodeGroupF (w : Word) : Except DecodeError Instr :=
  if fieldNN w = 0x07 then .ok (.ldVxDt (fieldX w))
  else if fieldNN w = 0x0A then .ok (.ldVxK (fieldX w))
  else if fieldNN w = 0x15 then .ok (.ldDtVx (fieldX w))
  else if fieldNN w = 0x18 then .ok (.ldStVx (fieldX w))
  else if fieldNN w = 0x1E then .ok (.addI (fieldX w))
  else if fieldNN w = 0x29 then .ok (.ldF (fieldX w))
  else if fieldNN w = 0x33 then .ok (.ldB (fieldX w))
  else if fieldNN w = 0x55 then .ok (.ldMemVx (fieldX w))
  else if fieldNN w = 0x65 then .ok (.ldVxMem (fieldX w))
  else .error .groupF

/-- The instruction of a word, or the class of R97 it is in (R95, R99): decided from the word alone (R125). -/
def decodeWord (w : Word) : Except DecodeError Instr :=
  match fieldOpcode w with
  | 0x0 => decodeGroup0 w
  | 0x1 => .ok (.jp (fieldNNN w))
  | 0x2 => .ok (.call (fieldNNN w))
  | 0x3 => .ok (.seImm (fieldX w) (fieldNN w))
  | 0x4 => .ok (.sneImm (fieldX w) (fieldNN w))
  | 0x5 => if fieldN w = 0 then .ok (.seReg (fieldX w) (fieldY w)) else .error .group5
  | 0x6 => .ok (.ldImm (fieldX w) (fieldNN w))
  | 0x7 => .ok (.addImm (fieldX w) (fieldNN w))
  | 0x8 => decodeGroup8 w
  | 0x9 => if fieldN w = 0 then .ok (.sneReg (fieldX w) (fieldY w)) else .error .group9
  | 0xA => .ok (.ldI (fieldNNN w))
  | 0xB => .ok (.jpOff (fieldX w) (fieldNNN w))
  | 0xC => .ok (.rnd (fieldX w) (fieldNN w))
  | 0xD => .ok (.drw (fieldX w) (fieldY w) (fieldN w))
  | 0xE => decodeGroupE w
  -- the opcode is one of 16 values; the one left is 0xF
  | _ => decodeGroupF w

/-- The word made of two bytes, the first the high one (R64, R91). -/
def wordOfBytes (hi lo : Byte) : Word := BitVec.ofNat 16 (hi.toNat * 256 + lo.toNat)

/-- The high byte of a word, which stands at the lower address (R64). -/
def highByte (w : Word) : Byte := BitVec.ofNat 8 (w.toNat / 256)

/-- The low byte of a word. -/
def lowByte (w : Word) : Byte := BitVec.ofNat 8 (w.toNat % 256)

/-- Decoding a list of bytes: the first instruction and the bytes after it. -/
def decode : List Byte → Except DecodeError (Instr × List Byte)
  | hi :: lo :: rest =>
    match decodeWord (wordOfBytes hi lo) with
    | .ok i => .ok (i, rest)
    | .error e => .error e
  | [_] => .error .truncated
  | [] => .error .truncated

/-! ## The opcode map of R96 -/

/-- The `match` column of R96. -/
def Instr.matchWord : Instr → Word
  | .cls => 0x00E0
  | .ret => 0x00EE
  | .jp _ => 0x1000
  | .call _ => 0x2000
  | .seImm _ _ => 0x3000
  | .sneImm _ _ => 0x4000
  | .seReg _ _ => 0x5000
  | .ldImm _ _ => 0x6000
  | .addImm _ _ => 0x7000
  | .ldReg _ _ => 0x8000
  | .orReg _ _ => 0x8001
  | .andReg _ _ => 0x8002
  | .xorReg _ _ => 0x8003
  | .addReg _ _ => 0x8004
  | .sub _ _ => 0x8005
  | .shr _ _ => 0x8006
  | .subn _ _ => 0x8007
  | .shl _ _ => 0x800E
  | .sneReg _ _ => 0x9000
  | .ldI _ => 0xA000
  | .jpOff _ _ => 0xB000
  | .rnd _ _ => 0xC000
  | .drw _ _ _ => 0xD000
  | .skp _ => 0xE09E
  | .sknp _ => 0xE0A1
  | .ldVxDt _ => 0xF007
  | .ldVxK _ => 0xF00A
  | .ldDtVx _ => 0xF015
  | .ldStVx _ => 0xF018
  | .addI _ => 0xF01E
  | .ldF _ => 0xF029
  | .ldB _ => 0xF033
  | .ldMemVx _ => 0xF055
  | .ldVxMem _ => 0xF065

/-- The `mask` column of R96. -/
def Instr.maskWord : Instr → Word
  | .cls | .ret => 0xFFFF
  | .jp _ | .call _ | .seImm _ _ | .sneImm _ _ | .ldImm _ _ | .addImm _ _ => 0xF000
  | .ldI _ | .jpOff _ _ | .rnd _ _ | .drw _ _ _ => 0xF000
  | .seReg _ _ | .sneReg _ _ | .ldReg _ _ | .orReg _ _ | .andReg _ _ | .xorReg _ _ => 0xF00F
  | .addReg _ _ | .sub _ _ | .shr _ _ | .subn _ _ | .shl _ _ => 0xF00F
  | .skp _ | .sknp _ | .ldVxDt _ | .ldVxK _ | .ldDtVx _ | .ldStVx _ => 0xF0FF
  | .addI _ | .ldF _ | .ldB _ | .ldMemVx _ | .ldVxMem _ => 0xF0FF

/-! ## The encoder -/

/-- Format NNN of R93 over a match word. -/
def encodeNNN (m : Nat) (nnn : Addr12) : Word := BitVec.ofNat 16 (m + nnn.toNat)

/-- Format XNN of R93 over a match word. -/
def encodeXNN (m : Nat) (x : RegNum) (nn : Byte) : Word := BitVec.ofNat 16 (m + x.val * 256 + nn.toNat)

/-- Formats XY and XYN of R93 over a match word; `n` is the low nibble, 0 for format XY. -/
def encodeXYN (m : Nat) (x y : RegNum) (n : Nat) : Word := BitVec.ofNat 16 (m + x.val * 256 + y.val * 16 + n)

/-- Format X of R93 over a match word. -/
def encodeX (m : Nat) (x : RegNum) : Word := BitVec.ofNat 16 (m + x.val * 256)

/-- The word of a well-formed instruction (R93, R96). -/
def encode : Instr → Word
  | .cls => 0x00E0
  | .ret => 0x00EE
  | .jp nnn => encodeNNN 0x1000 nnn
  | .call nnn => encodeNNN 0x2000 nnn
  | .seImm x nn => encodeXNN 0x3000 x nn
  | .sneImm x nn => encodeXNN 0x4000 x nn
  | .seReg x y => encodeXYN 0x5000 x y 0
  | .ldImm x nn => encodeXNN 0x6000 x nn
  | .addImm x nn => encodeXNN 0x7000 x nn
  | .ldReg x y => encodeXYN 0x8000 x y 0
  | .orReg x y => encodeXYN 0x8001 x y 0
  | .andReg x y => encodeXYN 0x8002 x y 0
  | .xorReg x y => encodeXYN 0x8003 x y 0
  | .addReg x y => encodeXYN 0x8004 x y 0
  | .sub x y => encodeXYN 0x8005 x y 0
  | .shr x y => encodeXYN 0x8006 x y 0
  | .subn x y => encodeXYN 0x8007 x y 0
  | .shl x y => encodeXYN 0x800E x y 0
  | .sneReg x y => encodeXYN 0x9000 x y 0
  | .ldI nnn => encodeNNN 0xA000 nnn
  -- the register number has no bits of its own: it is the top nibble of NNN
  | .jpOff _ nnn => encodeNNN 0xB000 nnn
  | .rnd x nn => encodeXNN 0xC000 x nn
  | .drw x y n => encodeXYN 0xD000 x y n.val
  | .skp x => encodeX 0xE09E x
  | .sknp x => encodeX 0xE0A1 x
  | .ldVxDt x => encodeX 0xF007 x
  | .ldVxK x => encodeX 0xF00A x
  | .ldDtVx x => encodeX 0xF015 x
  | .ldStVx x => encodeX 0xF018 x
  | .addI x => encodeX 0xF01E x
  | .ldF x => encodeX 0xF029 x
  | .ldB x => encodeX 0xF033 x
  | .ldMemVx x => encodeX 0xF055 x
  | .ldVxMem x => encodeX 0xF065 x

/-- The instruction as it stands in memory, high byte first (R64). -/
def encodeBytes (i : Instr) : List Byte := [highByte (encode i), lowByte (encode i)]

/-! ## The host's view of the table -/

/-- The instruction the decoder reads from the table word `w` of `nbits` bits. Every instruction is one 16-bit word
(R90), so the bytes given to the decoder are the word's two, high byte first. -/
def decodeTableWord (nbits w : Nat) : Option Instr :=
  let word : Word := BitVec.ofNat 16 (w % 2 ^ nbits)
  match decode [highByte word, lowByte word] with
  | .ok (i, _) => some i
  | .error _ => none

end Sys2Proof
end

