-- ==== Sys2Proof/Config.lean ====
section
/-! DEFINITION. What an implementation fixes (00_scope.md R6, the rows marked "parameter") and the free values.
The rows of R6 marked "fixed" are numerals in the definitions that use them. -/

namespace Sys2Proof.Config

/-- The byte the random source supplies at its `n`-th draw (R13, R43, R177). A FREE VALUE: no body, so nothing can
be proved of it beyond its range, and a claim holds for all 256 values of every draw (U4). Safe; log entry 5. -/
opaque drawByte : Nat → Byte

/-- The open parameters of R6. State carries one value of this type, which no step changes, so a statement about
every state holds for every value of the parameters (log entry 1). -/
structure Params where
  /-- `FONT_BASE`, 0 <= FONT_BASE <= 4016 (R71, D12). -/
  fontBase : Fin 4017
  /-- `FONT_DATA`, 16 glyphs of 5 bytes: byte `5*d + r` is row `r` of digit `d` (R72, D13). -/
  fontData : Vector Byte 80
  /-- `IPS`, engine steps per second of elapsed time (R6, R320). -/
  ips : Rat
  /-- `IPS` is a positive rational: 0 and negatives are not configurations (D34). -/
  ips_pos : 0 < ips
deriving DecidableEq, Repr

/-- `LOAD_ADDRESS` (R6): the fixed default address of `load_program` (R305); the host may pass another. -/
def loadAddress : Word := 0x200

/-- `TIMER_HZ` (R6): fixed at 60 timer steps per second. -/
def timerHz : Nat := 60

end Sys2Proof.Config
end

