-- ==== Sys2Proof/Machine/Font.lean ====
section
/-! DEFINITION. The font region and the contents of memory after reset (20_memory.md R71, R72; 70_reset_and_hazards.md
R300), and the default parameters of 00_scope.md R6. -/

namespace Sys2Proof.Machine

open Sys2Proof.Config

/-- The glyphs 0 to 7 of the table of R72, row 0 first. -/
def glyphs0to7 : List Byte :=
  [0xF0, 0x90, 0x90, 0x90, 0xF0, 0x20, 0x60, 0x20, 0x20, 0x70,
   0xF0, 0x10, 0xF0, 0x80, 0xF0, 0xF0, 0x10, 0xF0, 0x10, 0xF0,
   0x90, 0x90, 0xF0, 0x10, 0x10, 0xF0, 0x80, 0xF0, 0x10, 0xF0,
   0xF0, 0x80, 0xF0, 0x90, 0xF0, 0xF0, 0x10, 0x20, 0x40, 0x40]

/-- The glyphs 8 to F of the table of R72, row 0 first. -/
def glyphs8toF : List Byte :=
  [0xF0, 0x90, 0xF0, 0x90, 0xF0, 0xF0, 0x90, 0xF0, 0x10, 0xF0,
   0xF0, 0x90, 0xF0, 0x90, 0x90, 0xE0, 0x90, 0xE0, 0x90, 0xE0,
   0xF0, 0x80, 0x80, 0x80, 0xF0, 0xE0, 0x90, 0x90, 0x90, 0xE0,
   0xF0, 0x80, 0xF0, 0x80, 0xF0, 0xF0, 0x80, 0xF0, 0x80, 0x80]

/-- The default `FONT_DATA` of R72. PRESUMED: the spec marks the table as general knowledge, not in its source, and
D13 leaves it open. Unsafe for a claim about this value; log entry 3. -/
def defaultFont : Vector Byte 80 := ⟨(glyphs0to7 ++ glyphs8toF).toArray, by decide⟩

/-- The defaults of R6: FONT_BASE = 0x050 (PRESUMED, marked general knowledge by R71; log entry 2), FONT_DATA of R72
(PRESUMED, log entry 3), IPS = 700 (R6, R320). -/
def defaultParams : Params where
  fontBase := 0x050
  fontData := defaultFont
  ips := 700
  ips_pos := by decide

/-- What `reset` leaves at address `a` (R48, R300): the font bytes at `FONT_BASE .. FONT_BASE + 79`, 0 elsewhere. This
is also what an address the memory list does not name reads as. -/
def resetByte (p : Params) (a : Nat) : Byte :=
  if h : p.fontBase.val ≤ a ∧ a < p.fontBase.val + 80 then p.fontData[a - p.fontBase.val]'(by omega) else 0

end Sys2Proof.Machine
end

