-- ==== Sys2Proof/Machine/State.lean ====
section
/-! DEFINITION. The state of the machine (10_state.md R20), the events of its agents (00_scope.md R7), the reasons a
step can stop, and the state after reset (R48). -/

namespace Sys2Proof.Machine

open Sys2Proof.Config

/-- The four fault kinds of R250. The spec's fault is no stop of the model: taking one is a next state in which `es` is
`halted` (R255). -/
inductive FaultKind where
  /-- unrecognized opcode or sub-opcode (R251) -/
  | invalidInstruction
  /-- `RET` with an empty call stack (R252) -/
  | stackUnderflow
  /-- an engine access at 4096 or above (R253) -/
  | memoryOutOfBounds
  /-- a key number outside 0..15 (R254) -/
  | inputOutOfBounds
deriving DecidableEq, Repr

/-- The engine state `es` of R35. -/
inductive EngineState where
  | running
  /-- waiting for a key, which will be written to V`r` (R236) -/
  | blockedOnKey (r : RegNum)
  /-- stopped for good by the first fault, `f` (R128, R258) -/
  | halted (f : FaultKind)
deriving DecidableEq, Repr

/-- One atomic event of R7 and R15: a step of one of the two units, or one of the five host events. -/
inductive Event where
  /-- one engine step (R121) -/
  | engineStep
  /-- one timer step (R271) -/
  | timerStep
  /-- `reset()` (R300) -/
  | reset
  /-- `load_program(bytes, address = LOAD_ADDRESS)` (R305): an event written without an address loads at 0x200 (R6) -/
  | loadProgram (bytes : List Byte) (address : Word := Config.loadAddress)
  /-- `tick(elapsed)` (R273). `order` picks the merge of the steps it releases, which R274 leaves open: `true` takes
  the next engine step, `false` the next timer step. Being data of the event, it is free; log entry 8. -/
  | tick (elapsed : Rat) (order : List Bool)
  /-- `press_key(k)`, `k` any integer (R277, R279) -/
  | pressKey (k : Int)
  /-- `release_key(k)`, `k` any integer (R278, R279) -/
  | releaseKey (k : Int)
deriving DecidableEq, Repr

/-- Memory: the bytes that differ from the reset contents, as (address, byte) pairs in rising order. -/
abbrev Memory := List Host.Cell

/-- The display buffer of R38: `fb[r][c]`, 32 rows of 64 columns, `true` is lit. -/
abbrev Framebuffer := Vector (Vector Bool 64) 32

/-- The whole state: the thirteen components of R20 (V0..VF, I, pc, stack, DT, ST, es, mem, fb, key, cip, acc_i, acc_t),
then four fields of the model's own (`params`, `draws`, `dumps`, `agenda`). -/
structure State where
  /-- V0..VF (R21); VF is register 15 and the flag (R32) -/
  v : Vector Byte 16
  /-- I (R25) -/
  i : Word
  /-- pc (R27) -/
  pc : Word
  /-- the call stack (R30), top first -/
  stack : List Word
  /-- DT (R33) -/
  dt : Byte
  /-- ST (R34) -/
  st : Byte
  /-- es (R35) -/
  es : EngineState
  /-- mem (R37) -/
  mem : Memory
  /-- fb (R38) -/
  fb : Framebuffer
  /-- key (R39), `true` is pressed -/
  keys : Vector Bool 16
  /-- cip (R44) -/
  cip : Word
  /-- acc_i (R45), seconds -/
  accI : Rat
  /-- acc_t (R46), seconds -/
  accT : Rat
  /-- the open parameters of R6; no step writes them (log entry 1) -/
  params : Params
  /-- how many random bytes have been drawn: the argument of the free value `Config.drawByte` (log entry 5) -/
  draws : Nat
  /-- how many diagnostic requests have been signalled (R255, R286), a history of that output (log entry 9) -/
  dumps : Nat
  /-- the events to come, next one first; when it is empty the engine steps (log entry 7) -/
  agenda : List Event
deriving DecidableEq, Repr

/-- Reasons to stop with a fault of the model. There is NONE: every fault the spec describes is a next state (R255,
log entry 6), and no access of this machine lacks a described effect. Nothing raises one; safe. -/
inductive Fault where
deriving DecidableEq, Repr

/-- Reasons to refuse. -/
inductive Refusal where
  /-- raised by `exec`'s arm of an instruction that has no meaning yet; safe -/
  | notModelled (mnemonic : String)
  /-- raised by `load_program` with `address + len(bytes) > 4096`, which the spec leaves without a defined result and
  tells a model to refuse (R70, R306, U1); safe -/
  | loadPastMemory
  /-- raised by `tick(elapsed)` with `elapsed < 0`, which "has no meaning" (R273, U12); safe -/
  | negativeElapsed
deriving DecidableEq, Repr

/-- The state after `reset` under the parameters `p` (R48, R300). -/
def State.resetWith (p : Params) : State where
  v := Vector.replicate 16 0
  i := 0
  pc := 0
  stack := []
  dt := 0
  st := 0
  es := .running
  mem := []
  fb := Vector.replicate 32 (Vector.replicate 64 false)
  keys := Vector.replicate 16 false
  cip := 0
  accI := 0
  accT := 0
  params := p
  draws := 0
  dumps := 0
  agenda := []

/-- The machine right after reset, with the default parameters (R48; log entries 1, 2, 3). -/
def State.reset : State := State.resetWith defaultParams

end Sys2Proof.Machine
end

