-- ==== Sys2Proof/Machine/Memory.lean ====
section
/-! DEFINITION. The one memory (20_memory.md R60): reading and writing one byte, the canonical form of the list, and the
canonical-form predicate. Bounds are checked by the callers in Ops.lean (R66). -/

namespace Sys2Proof.Machine

open Sys2Proof.Config

/-- The byte the list gives for `a`, if it names `a`. -/
def Memory.lookup : Memory → Nat → Option Byte
  | [], _ => none
  | (k, b) :: m, a => if k = a then some b else Memory.lookup m a

/-- The byte at `a`: the listed one, else what reset left there. -/
def Memory.read (p : Params) (m : Memory) (a : Nat) : Byte := (Memory.lookup m a).getD (resetByte p a)

/-- The list with `a` set to `b`, in rising order of address. -/
def Memory.insert (a : Nat) (b : Byte) : Memory → Memory
  | [] => [(a, b)]
  | (k, c) :: m =>
    if a < k then (a, b) :: (k, c) :: m
    else if a = k then (a, b) :: m
    else (k, c) :: Memory.insert a b m

/-- The list without any entry for `a`. -/
def Memory.erase (a : Nat) : Memory → Memory
  | [] => []
  | (k, c) :: m => if k = a then Memory.erase a m else (k, c) :: Memory.erase a m

/-- Writing `b` at `a`. Writing what an unlisted address reads as removes the entry, so equal memories are equal lists. -/
def Memory.write (p : Params) (m : Memory) (a : Nat) (b : Byte) : Memory :=
  if b = resetByte p a then Memory.erase a m else Memory.insert a b m

/-- Writing a list of bytes at `a`, `a + 1`, ... (the copy of `load_program`, R305). -/
def Memory.writeList (p : Params) : Memory → Nat → List Byte → Memory
  | m, _, [] => m
  | m, a, b :: bs => Memory.writeList p (Memory.write p m a b) (a + 1) bs

/-- The addresses of the list rise strictly from `lo`, lie below 4096, and no entry repeats the reset contents. -/
def Memory.wfFrom (p : Params) : Nat → Memory → Bool
  | _, [] => true
  | lo, (k, b) :: m => decide (lo ≤ k) && decide (k < 4096) && decide (b ≠ resetByte p k) && Memory.wfFrom p (k + 1) m

/-- The canonical form. -/
def Memory.wf (p : Params) (m : Memory) : Bool := Memory.wfFrom p 0 m

end Sys2Proof.Machine
end

