-- ==== Sys2Proof/Machine/Ops.lean ====
section
/-! DEFINITION. The named operations over the state, one home for each component: registers (R21), memory with its
bounds check (R11, R66), the call stack (R30), the display (R38), the random byte (R13), taking a fault (R255) and
the only way out of one (R300). -/

namespace Sys2Proof.Machine

/-! ## Registers -/

/-- `x[r]` of R10. No register is hardwired (R22). -/
def State.reg (s : State) (r : RegNum) : Byte := s.v[r.val]

/-- `x[r] <- b` of R10. -/
def State.setReg (s : State) (r : RegNum) (b : Byte) : State := { s with v := s.v.set r.val b }

/-- The number of VF, the flag register (R10, R32). -/
def vf : RegNum := 15

/-! ## Memory -/

/-- The byte of memory at `a`, without a bounds check. -/
def State.byte (s : State) (a : Nat) : Byte := Memory.read s.params s.mem a

/-- `mem[a] <- b`, without a bounds check. -/
def State.setByte (s : State) (a : Nat) (b : Byte) : State := { s with mem := Memory.write s.params s.mem a b }

/-- `MemRead(a, 1)` of R11; `none` where it raises `MemoryOutOfBounds`. -/
def State.memRead (s : State) (a : Nat) : Option Byte := if a < 4096 then some (s.byte a) else none

/-- `MemRead(a, 2)` of R11, big-endian (R64); `none` where it raises `MemoryOutOfBounds`. -/
def State.memReadWord (s : State) (a : Nat) : Option Word :=
  if a + 1 < 4096 then some (wordOfBytes (s.byte a) (s.byte (a + 1))) else none

/-- `MemWrite(a, 1, b)` of R11; `none` where it raises `MemoryOutOfBounds`. -/
def State.memWrite (s : State) (a : Nat) (b : Byte) : Option State := if a < 4096 then some (s.setByte a b) else none

/-! ## Faults -/

/-- `raise f` (R12, R255): the first fault is kept, and the diagnostic request is signalled by a raise that changes
`es` (R286, D31). Nothing is saved and pc is not redirected; the caller abandons the rest of its effect. A blocked
engine forgets the register it waited for (R36, R279). -/
def State.raise (s : State) (f : FaultKind) : State :=
  match s.es with
  | .halted _ => s
  | .running => { s with es := .halted f, dumps := s.dumps + 1 }
  | .blockedOnKey _ => { s with es := .halted f, dumps := s.dumps + 1 }

/-- `reset()` as an event (R300, R301), the only way out of `halted` (R258): every component of R20 takes its reset
value. The parameters and the random source are untouched (R43, R301); so are the history of diagnostic requests
and the events still to come, which are no part of the block (log entry 19). -/
def State.resetNow (s : State) : State :=
  { State.resetWith s.params with draws := s.draws, dumps := s.dumps, agenda := s.agenda }

/-! ## Sequences of byte accesses (R62): ascending addresses, each access checked when it is reached -/

/-- `MemWrite` of the listed bytes at `a`, `a + 1`, ...; the first address out of bounds raises, and the writes before
it stay made. -/
def State.storeBytes : List Byte → Nat → State → State
  | [], _, s => s
  | b :: bs, a, s =>
    match s.memWrite a b with
    | none => s.raise .memoryOutOfBounds
    | some s' => State.storeBytes bs (a + 1) s'

/-- `x[r] <- MemRead(a, 1)` for the listed registers at `a`, `a + 1`, ...; the first address out of bounds raises, and
the registers before it stay loaded. -/
def State.loadRegs : List RegNum → Nat → State → State
  | [], _, s => s
  | r :: rs, a, s =>
    match s.memRead a with
    | none => s.raise .memoryOutOfBounds
    | some b => State.loadRegs rs (a + 1) (s.setReg r b)

/-! ## The call stack (R30) -/

/-- `push(w)`. -/
def State.push (s : State) (w : Word) : State := { s with stack := w :: s.stack }

/-! ## The program counter -/

/-- `pc <- w`. -/
def State.setPc (s : State) (w : Word) : State := { s with pc := w }

/-- The skip of R149: 2 more on top of the fetch's advance, modulo 65536, when the condition holds. -/
def State.skipIf (s : State) (c : Bool) : State := if c then s.setPc (s.pc + 2) else s

/-! ## The display (R38) -/

/-- `fb[r][c]`; `false` outside the grid, where nothing is ever asked of it. -/
def State.pixel (s : State) (r c : Nat) : Bool :=
  if h : r < 32 ∧ c < 64 then (s.fb[r]'h.1)[c]'h.2 else false

/-- `fb[r][c] <- b`; nothing outside the grid. -/
def State.setPixel (s : State) (r c : Nat) (b : Bool) : State :=
  if h : r < 32 ∧ c < 64 then { s with fb := s.fb.set r ((s.fb[r]'h.1).set c b h.2) h.1 } else s

/-- Every cell 0 (R211). -/
def State.clearDisplay (s : State) : State := { s with fb := Vector.replicate 32 (Vector.replicate 64 false) }

/-! ## Keys (R39) -/

/-- `key[k]`. -/
def State.key (s : State) (k : Fin 16) : Bool := s.keys[k.val]

/-- `key[k] <- b`. -/
def State.setKey (s : State) (k : Fin 16) (b : Bool) : State := { s with keys := s.keys.set k.val b }

/-! ## The random byte (R13) -/

/-- `draw_byte()`: the byte drawn, and the state with one more byte drawn. -/
def State.drawByte (s : State) : Byte × State := (Config.drawByte s.draws, { s with draws := s.draws + 1 })

end Sys2Proof.Machine
end

