-- ==== Sys2Proof/Machine/Flags.lean ====
section
/-! DEFINITION. The arithmetic unit (42_load_alu_random.md R160): exact unsigned results narrowed to a byte, and the
flag each of the six flag-writing instructions computes for VF (10_state.md R32). -/

namespace Sys2Proof.Machine

/-- `(a + b) mod 256`. -/
def addResult (a b : Byte) : Byte := BitVec.ofNat 8 (a.toNat + b.toNat)

/-- The carry out of bit 7: `a + b > 255` (R168). -/
def addCarry (a b : Byte) : Bool := decide (a.toNat + b.toNat > 255)

/-- `(a - b) mod 256`, the non-negative residue (R9, R160). -/
def subResult (a b : Byte) : Byte := BitVec.ofInt 8 ((a.toNat : Int) - (b.toNat : Int))

/-- The flag of a subtraction: the minuend `a` strictly greater than `b` (R169, R171, U14). -/
def subFlag (a b : Byte) : Bool := decide (a.toNat > b.toNat)

/-- `a div 2` (R170). -/
def shrResult (a : Byte) : Byte := BitVec.ofNat 8 (a.toNat / 2)

/-- The bit `SHR` shifts out: bit 0 (R170). -/
def shrFlag (a : Byte) : Bool := a.toNat % 2 == 1

/-- `(a * 2) mod 256` (R172). -/
def shlResult (a : Byte) : Byte := BitVec.ofNat 8 (a.toNat * 2)

/-- The bit `SHL` shifts out: bit 7 (R172). -/
def shlFlag (a : Byte) : Bool := a.toNat / 128 == 1

/-- A flag as the byte VF holds: 0 or 1 (R32). -/
def flagByte (f : Bool) : Byte := if f then 1 else 0

/-- `x[15] <- flag`. -/
def State.setFlag (s : State) (f : Bool) : State := s.setReg vf (flagByte f)

/-- The writes of a flag-producing instruction: the result to V[X], then the flag to VF, so that with X = F the flag
survives (R161, D4). Both were computed from the old registers. -/
def State.setResultThenFlag (s : State) (x : RegNum) (result : Byte) (flag : Bool) : State :=
  (s.setReg x result).setFlag flag

end Sys2Proof.Machine
end

