-- ==== Sys2Proof/Machine/Alu.lean ====
section
/-! DEFINITION. Register loads, the arithmetic unit and the random instruction (42_load_alu_random.md). None of them
changes `pc` further or can fault (R160). -/

namespace Sys2Proof.Machine

/-- `6XNN` LD Vx,NN (R162). -/
def execLdImm (x : RegNum) (nn : Byte) (s : State) : Host.Outcome State Fault Refusal := .next (s.setReg x nn)

/-- `7XNN` ADD Vx,NN (R163): no flag. -/
def execAddImm (x : RegNum) (nn : Byte) (s : State) : Host.Outcome State Fault Refusal :=
  .next (s.setReg x (addResult (s.reg x) nn))

/-- `8XY0` LD Vx,Vy (R164). -/
def execLdReg (x y : RegNum) (s : State) : Host.Outcome State Fault Refusal := .next (s.setReg x (s.reg y))

/-- `8XY1` OR Vx,Vy (R165): VF is not written (D6). -/
def execOrReg (x y : RegNum) (s : State) : Host.Outcome State Fault Refusal :=
  .next (s.setReg x (s.reg x ||| s.reg y))

/-- `8XY2` AND Vx,Vy (R166): VF is not written (D6). -/
def execAndReg (x y : RegNum) (s : State) : Host.Outcome State Fault Refusal :=
  .next (s.setReg x (s.reg x &&& s.reg y))

/-- `8XY3` XOR Vx,Vy (R167): VF is not written (D6). -/
def execXorReg (x y : RegNum) (s : State) : Host.Outcome State Fault Refusal :=
  .next (s.setReg x (s.reg x ^^^ s.reg y))

/-- `8XY4` ADD Vx,Vy (R168): VF is the carry. -/
def execAddReg (x y : RegNum) (s : State) : Host.Outcome State Fault Refusal :=
  .next (s.setResultThenFlag x (addResult (s.reg x) (s.reg y)) (addCarry (s.reg x) (s.reg y)))

/-- `8XY5` SUB Vx,Vy (R169): V[X] - V[Y], VF is V[X] > V[Y]. -/
def execSub (x y : RegNum) (s : State) : Host.Outcome State Fault Refusal :=
  .next (s.setResultThenFlag x (subResult (s.reg x) (s.reg y)) (subFlag (s.reg x) (s.reg y)))

/-- `8XY6` SHR Vx (R170): V[X] in place; the field Y is ignored. -/
def execShr (x _y : RegNum) (s : State) : Host.Outcome State Fault Refusal :=
  .next (s.setResultThenFlag x (shrResult (s.reg x)) (shrFlag (s.reg x)))

/-- `8XY7` SUBN Vx,Vy (R171): V[Y] - V[X], VF is V[Y] > V[X]. -/
def execSubn (x y : RegNum) (s : State) : Host.Outcome State Fault Refusal :=
  .next (s.setResultThenFlag x (subResult (s.reg y) (s.reg x)) (subFlag (s.reg y) (s.reg x)))

/-- `8XYE` SHL Vx (R172): V[X] in place; the field Y is ignored. -/
def execShl (x _y : RegNum) (s : State) : Host.Outcome State Fault Refusal :=
  .next (s.setResultThenFlag x (shlResult (s.reg x)) (shlFlag (s.reg x)))

/-- `CXNN` RND Vx,NN (R177): one free byte under the mask NN. -/
def execRnd (x : RegNum) (nn : Byte) (s : State) : Host.Outcome State Fault Refusal :=
  .next (s.drawByte.2.setReg x (s.drawByte.1 &&& nn))

end Sys2Proof.Machine
end

