-- ==== Sys2Proof/Machine/Operands.lean ====
section
/-! DEFINITION. The operand forms (30_encoding.md R94, 43_index_and_memory.md R190): immediates as they are decoded,
the address I + offset, register lists, key numbers, the sprite's origin and its bits. -/

namespace Sys2Proof.Machine

/-- `NNN` as an address or a value for `I`: zero-extended to 16 bits (R94). -/
def addrOperand (nnn : Addr12) : Word := BitVec.ofNat 16 nnn.toNat

/-- The effective address `I + offset`, a mathematical sum that nothing reduces (R66, R190). -/
def State.effAddr (s : State) (offset : Nat) : Nat := s.i.toNat + offset

/-- The register numbers 0, 1, ..., x in this order (R195, R196). -/
def regsUpTo (x : RegNum) : List RegNum := (List.finRange 16).take (x.val + 1)

/-- The jump target of `BXNN`: `(NNN + x[X]) mod 65536` (R148). -/
def offsetTarget (nnn : Addr12) (b : Byte) : Word := BitVec.ofNat 16 (nnn.toNat + b.toNat)

/-- The key number a byte names: none when it is above 15, with no masking to the low nibble (R231). -/
def keyOperand (b : Byte) : Option (Fin 16) := if h : b.toNat < 16 then some ⟨b.toNat, h⟩ else none

/-- The address `FX29` computes: `(FONT_BASE + 5 * V[X]) mod 65536`, of the whole byte (R193, D11). -/
def glyphAddr (p : Config.Params) (b : Byte) : Word := BitVec.ofNat 16 (p.fontBase.val + 5 * b.toNat)

/-- The start column of a sprite (R213). -/
def spriteColumn (b : Byte) : Nat := b.toNat % 64

/-- The start row of a sprite (R213). -/
def spriteRow (b : Byte) : Nat := b.toNat % 32

/-- The pixel `k` of a sprite byte, `k = 0` being bit 7, the leftmost: `(b div 2^(7 - k)) mod 2` (R213). -/
def spriteBit (b : Byte) (k : Nat) : Bool := b.toNat / 2 ^ (7 - k) % 2 == 1

/-- The three decimal digits of a byte: hundreds, tens, units (R194). -/
def decimalDigits (b : Byte) : List Byte :=
  [BitVec.ofNat 8 (b.toNat / 100), BitVec.ofNat 8 (b.toNat / 10 % 10), BitVec.ofNat 8 (b.toNat % 10)]

end Sys2Proof.Machine
end

