-- ==== Sys2Proof/Machine/Display.lean ====
section
/-! DEFINITION. The display: clear and the sprite XOR compositor (44_display.md). -/

namespace Sys2Proof.Machine

/-- `00E0` CLS (R211): VF is not written. -/
def execCls (s : State) : Host.Outcome State Fault Refusal := .next s.clearDisplay

/-- One pixel of a draw (R213): the incoming bit is XORed into the cell, and VF becomes 1 when both were 1. Outside
the grid it is clipped: not drawn, not tested. -/
def State.drawPixel (s : State) (r c : Nat) (bit : Bool) : State :=
  if c ≤ 63 ∧ r ≤ 31 then
    let drawn := s.setPixel r c (s.pixel r c ^^ bit)
    if bit && s.pixel r c then drawn.setFlag true else drawn
  else s

/-- One row of a draw: the pixels of the listed `k`, in order, from column `x0` (R213). -/
def State.drawRow (b : Byte) (r x0 : Nat) : List Nat → State → State
  | [], s => s
  | k :: ks, s => State.drawRow b r x0 ks (s.drawPixel r (x0 + k) (spriteBit b k))

/-- The pixels of a row, `k = 0` (bit 7) first (R213). -/
def rowPixels : List Nat := [0, 1, 2, 3, 4, 5, 6, 7]

/-- `n` rows of a draw from row index `row` on (R213): each row's byte is read when the row is reached, and an address
of 4096 or more ends the draw, also where the whole row is clipped. -/
def State.drawRows (x0 y0 : Nat) : Nat → Nat → State → State
  | 0, _, s => s
  | n + 1, row, s =>
    match s.memRead (s.effAddr row) with
    | none => s.raise .memoryOutOfBounds
    | some b => State.drawRows x0 y0 n (row + 1) (State.drawRow b (y0 + row) x0 rowPixels s)

/-- `DXYN` DRW Vx,Vy,N (R213): the origin is taken from the registers before VF is cleared. -/
def execDrw (x y : RegNum) (n : Fin 16) (s : State) : Host.Outcome State Fault Refusal :=
  .next (State.drawRows (spriteColumn (s.reg x)) (spriteRow (s.reg y)) n.val 0 (s.setFlag false))

end Sys2Proof.Machine
end

