-- ==== Sys2Proof/Machine/Flow.lean ====
section
/-! DEFINITION. Control transfer and the skips on register values (41_flow_and_skips.md). The fetch has already
happened: `pc` is `cip + 2` (R14). -/

namespace Sys2Proof.Machine

/-- `00EE` RET (R141). -/
def execRet (s : State) : Host.Outcome State Fault Refusal :=
  match s.stack with
  | [] => .next (s.raise .stackUnderflow)
  | w :: rest => .next { s with pc := w, stack := rest }

/-- `1NNN` JP NNN (R142). -/
def execJp (nnn : Addr12) (s : State) : Host.Outcome State Fault Refusal := .next (s.setPc (addrOperand nnn))

/-- `2NNN` CALL NNN (R143): pushes the address after the CALL. -/
def execCall (nnn : Addr12) (s : State) : Host.Outcome State Fault Refusal :=
  .next ((s.push s.pc).setPc (addrOperand nnn))

/-- `3XNN` SE Vx,NN (R144). -/
def execSeImm (x : RegNum) (nn : Byte) (s : State) : Host.Outcome State Fault Refusal :=
  .next (s.skipIf (s.reg x == nn))

/-- `4XNN` SNE Vx,NN (R145). -/
def execSneImm (x : RegNum) (nn : Byte) (s : State) : Host.Outcome State Fault Refusal :=
  .next (s.skipIf (s.reg x != nn))

/-- `5XY0` SE Vx,Vy (R146). -/
def execSeReg (x y : RegNum) (s : State) : Host.Outcome State Fault Refusal :=
  .next (s.skipIf (s.reg x == s.reg y))

/-- `9XY0` SNE Vx,Vy (R147). -/
def execSneReg (x y : RegNum) (s : State) : Host.Outcome State Fault Refusal :=
  .next (s.skipIf (s.reg x != s.reg y))

/-- `BXNN` JP Vx,NNN (R148): V[X] is added, X being the top nibble of NNN; never V0 for its own sake. -/
def execJpOff (x : RegNum) (nnn : Addr12) (s : State) : Host.Outcome State Fault Refusal :=
  .next (s.setPc (offsetTarget nnn (s.reg x)))

end Sys2Proof.Machine
end

