-- ==== Sys2Proof/Machine/Index.lean ====
section
/-! DEFINITION. The index register, the decimal store, the register block store and load (43_index_and_memory.md).
`I` is the same after a store or a load as before it (R190, D5). -/

namespace Sys2Proof.Machine

/-- `I <- w`. -/
def State.setI (s : State) (w : Word) : State := { s with i := w }

/-- `ANNN` LD I,NNN (R191). -/
def execLdI (nnn : Addr12) (s : State) : Host.Outcome State Fault Refusal := .next (s.setI (addrOperand nnn))

/-- `FX1E` ADD I,Vx (R192): modulo 65536, no flag. -/
def execAddI (x : RegNum) (s : State) : Host.Outcome State Fault Refusal :=
  .next (s.setI (BitVec.ofNat 16 (s.i.toNat + (s.reg x).toNat)))

/-- `FX29` LD F,Vx (R193). -/
def execLdF (x : RegNum) (s : State) : Host.Outcome State Fault Refusal :=
  .next (s.setI (glyphAddr s.params (s.reg x)))

/-- `FX33` LD B,Vx (R194): hundreds, tens and units at I, I + 1, I + 2. -/
def execLdB (x : RegNum) (s : State) : Host.Outcome State Fault Refusal :=
  .next (State.storeBytes (decimalDigits (s.reg x)) (s.effAddr 0) s)

/-- `FX55` LD [I],Vx (R195): V0..V[X] at I, I + 1, ... -/
def execLdMemVx (x : RegNum) (s : State) : Host.Outcome State Fault Refusal :=
  .next (State.storeBytes ((regsUpTo x).map s.reg) (s.effAddr 0) s)

/-- `FX65` LD Vx,[I] (R196): V0..V[X] from I, I + 1, ... -/
def execLdVxMem (x : RegNum) (s : State) : Host.Outcome State Fault Refusal :=
  .next (State.loadRegs (regsUpTo x) (s.effAddr 0) s)

end Sys2Proof.Machine
end

