-- ==== Sys2Proof/Machine/TimersKeys.lean ====
section
/-! DEFINITION. The timer and key instructions (45_timers_and_keys.md). -/

namespace Sys2Proof.Machine

/-- `EX9E` SKP Vx (R231): a key number above 15 raises `InputOutOfBounds` (D10). -/
def execSkp (x : RegNum) (s : State) : Host.Outcome State Fault Refusal :=
  match keyOperand (s.reg x) with
  | none => .next (s.raise .inputOutOfBounds)
  | some k => .next (s.skipIf (s.key k))

/-- `EXA1` SKNP Vx (R232). -/
def execSknp (x : RegNum) (s : State) : Host.Outcome State Fault Refusal :=
  match keyOperand (s.reg x) with
  | none => .next (s.raise .inputOutOfBounds)
  | some k => .next (s.skipIf (!s.key k))

/-- `FX07` LD Vx,DT (R233). -/
def execLdVxDt (x : RegNum) (s : State) : Host.Outcome State Fault Refusal := .next (s.setReg x s.dt)

/-- `FX0A` LD Vx,K (R236): the engine blocks and nothing else; the register is written by the key press (R277). -/
def execLdVxK (x : RegNum) (s : State) : Host.Outcome State Fault Refusal := .next { s with es := .blockedOnKey x }

/-- `FX15` LD DT,Vx (R234). -/
def execLdDtVx (x : RegNum) (s : State) : Host.Outcome State Fault Refusal := .next { s with dt := s.reg x }

/-- `FX18` LD ST,Vx (R235). -/
def execLdStVx (x : RegNum) (s : State) : Host.Outcome State Fault Refusal := .next { s with st := s.reg x }

end Sys2Proof.Machine
end

