-- ==== Sys2Proof/Machine/Engine.lean ====
section
/-! DEFINITION. The engine step (40_engine_cycle.md R121 to R129): fetch, decode, dispatch, execute. -/

namespace Sys2Proof.Machine

/-- The state in which an instruction executes: `cip` remembers its address and `pc` has advanced by 2, modulo 65536
(R14, R122). -/
def State.fetched (s : State) : State := { s with cip := s.pc, pc := s.pc + 2 }

/-- A fetch at `pc >= 4095` (R123, D2): `cip` is set, `pc` is not advanced, and `MemoryOutOfBounds` is raised. -/
def State.fetchFault (s : State) : State := State.raise { s with cip := s.pc } .memoryOutOfBounds

/-- The word the next fetch reads, `none` where it faults (R122, R123). -/
def State.fetchWord (s : State) : Option Word := s.memReadWord s.pc.toNat

/-- One engine step of a running engine (R121). An invalid word raises `InvalidInstruction` after the fetch, before any
operand is read (R125, R129). -/
def runInstruction (s : State) : Host.Outcome State Fault Refusal :=
  match s.fetchWord with
  | none => .next s.fetchFault
  | some w =>
    match decodeWord w with
    | .error _ => .next (s.fetched.raise .invalidInstruction)
    | .ok i => exec i s.fetched

/-- One engine step (R121): nothing while blocked (R127) or halted (R128). -/
def engineStep (s : State) : Host.Outcome State Fault Refusal :=
  match s.es with
  | .running => runInstruction s
  | .blockedOnKey _ => .next s
  | .halted _ => .next s

end Sys2Proof.Machine
end

