-- ==== Sys2Proof/Machine/Events.lean ====
section
/-! DEFINITION. The other agents: the timer unit and the host's events (60_exceptions.md R271 to R280,
70_reset_and_hazards.md R300 to R306), and one step of the whole block. -/

namespace Sys2Proof.Machine

/-! ## The timer unit -/

/-- A counter one lower, never below 0 (R271). -/
def countDown (b : Byte) : Byte := if b.toNat > 0 then BitVec.ofNat 8 (b.toNat - 1) else b

/-- The timer step (R271), in every engine state (R272). -/
def State.timerStep (s : State) : State := { s with dt := countDown s.dt, st := countDown s.st }

/-! ## tick -/

/-- A merge of `ni` engine steps and `nt` timer steps, picked by `order` (`true`: an engine step next, `false`: a timer
step next); what `order` leaves over follows, engine steps first. Every merge is one of these (R274). -/
def mergeSteps : List Bool → Nat → Nat → List Event
  | [], ni, nt => List.replicate ni .engineStep ++ List.replicate nt .timerStep
  | true :: o, ni + 1, nt => .engineStep :: mergeSteps o ni nt
  | true :: o, 0, nt => mergeSteps o 0 nt
  | false :: o, ni, nt + 1 => .timerStep :: mergeSteps o ni nt
  | false :: o, ni, 0 => mergeSteps o ni 0

/-- How many whole periods of `1/rate` seconds an accumulator holds: `floor(acc / (1/rate))` (R273). -/
def periods (rate acc : Rat) : Nat := (acc * rate).floor.toNat

/-- What is left of an accumulator after its whole periods are consumed (R273). -/
def remainder (rate acc : Rat) : Rat := acc - periods rate acc / rate

/-- `tick(elapsed)` (R273): both accumulators take the elapsed time, and the steps that have fallen due are released,
before anything else the host does (R15, R274). A negative time is refused (D18). -/
def execTick (elapsed : Rat) (order : List Bool) (s : State) : Host.Outcome State Fault Refusal :=
  if elapsed < 0 then .refused .negativeElapsed
  else
    let ai := s.accI + elapsed
    let at' := s.accT + elapsed
    .next { s with
      accI := remainder s.params.ips ai
      accT := remainder Config.timerHz at'
      agenda := mergeSteps order (periods s.params.ips ai) (periods Config.timerHz at') ++ s.agenda }

/-! ## Keys -/

/-- The key an integer names, `none` outside 0..15 (R279). -/
def keyNumber (k : Int) : Option (Fin 16) := if h : 0 ≤ k ∧ k < 16 then some ⟨k.toNat, by omega⟩ else none

/-- `press_key(k)` (R277, R279): the press alone ends a key wait, whatever the old key state was. -/
def State.pressKey (s : State) (k : Int) : State :=
  match keyNumber k with
  | none => s.raise .inputOutOfBounds
  | some n =>
    match s.es with
    | .blockedOnKey r => ({ s with es := .running }.setKey n true).setReg r (BitVec.ofNat 8 n.val)
    | .running => s.setKey n true
    | .halted _ => s.setKey n true

/-- `release_key(k)` (R278, R279). -/
def State.releaseKey (s : State) (k : Int) : State :=
  match keyNumber k with
  | none => s.raise .inputOutOfBounds
  | some n => s.setKey n false

/-! ## Program load -/

/-- `load_program(bytes, address)` (R305): the bytes, `pc` and `cip`, and nothing else; a load that does not fit is
refused (R306, D21). -/
def execLoadProgram (bytes : List Byte) (address : Word) (s : State) : Host.Outcome State Fault Refusal :=
  if address.toNat + bytes.length ≤ 4096 then
    .next { s with mem := Memory.writeList s.params s.mem address.toNat bytes, pc := address, cip := address }
  else .refused .loadPastMemory

/-! ## One step of the block -/

/-- One atomic event (R7, R15). -/
def execEvent (e : Event) (s : State) : Host.Outcome State Fault Refusal :=
  match e with
  | .engineStep => engineStep s
  | .timerStep => .next s.timerStep
  | .reset => .next s.resetNow
  | .loadProgram bytes address => execLoadProgram bytes address s
  | .tick elapsed order => execTick elapsed order s
  | .pressKey k => .next (s.pressKey k)
  | .releaseKey k => .next (s.releaseKey k)

/-- The event the next step performs: the first of the agenda, an engine step when there is none (log entry 7). -/
def State.nextEvent (s : State) : Event := s.agenda.headD .engineStep

/-- The state in which that event happens: it has left the agenda. -/
def State.begin (s : State) : State := { s with agenda := s.agenda.tail }

/-- The next event of the agenda, performed. -/
def performNext (s : State) : Host.Outcome State Fault Refusal := execEvent s.nextEvent s.begin

end Sys2Proof.Machine
end

