-- ==== Sys2Proof/Machine/Observe.lean ====
section
/-! DEFINITION. The host's four read-only observations (60_exceptions.md R282 to R286): pure functions of the state. -/

namespace Sys2Proof.Machine

/-- `snapshot_display()`: the whole grid (R282). -/
def State.snapshotDisplay (s : State) : Framebuffer := s.fb

/-- `sound_active()`: the bit ST > 0 (R283). -/
def State.soundActive (s : State) : Bool := decide (s.st.toNat > 0)

/-- The engine status (R284). -/
def State.engineStatus (s : State) : EngineState := s.es

/-- `dump_diagnostics()`: all 4096 bytes of memory, and `cip`, the faulting program counter (R286). -/
def State.dumpDiagnostics (s : State) : List Byte × Word := ((List.range 4096).map s.byte, s.cip)

/-- The cause codes R259 assigns where a number is wanted: 0 is no fault. -/
def State.causeCode (s : State) : Nat :=
  match s.es with
  | .running => 0
  | .blockedOnKey _ => 0
  | .halted .invalidInstruction => 1
  | .halted .stackUnderflow => 2
  | .halted .memoryOutOfBounds => 3
  | .halted .inputOutOfBounds => 4

end Sys2Proof.Machine
end

