-- ==== Sys2Proof/Machine/Step.lean ====
section
/-! DEFINITION. One step of the machine, and where a test's word is placed. -/

namespace Sys2Proof.Machine

/-- One step: the next event of the agenda, an engine step when the agenda is empty (R7, R15, R121; log entry 7). -/
def step (s : State) : Host.Outcome State Fault Refusal := performNext s

/-- `s` with the table word `w` stored where the next engine step fetches, high byte first (R64), nothing scheduled
before that step, and the engine running. A `pc` that has no room for a word (R123) is moved to
`LOAD_ADDRESS` (R6, R305); log entry 12. -/
def State.withFetchWord (s : State) (nbits w : Nat) : State :=
  let word : Word := BitVec.ofNat 16 (w % 2 ^ nbits)
  let pc : Word := if s.pc.toNat < 4095 then s.pc else Config.loadAddress
  { s with
    mem := Memory.writeList s.params s.mem pc.toNat [highByte word, lowByte word]
    pc := pc
    es := .running
    agenda := [] }

end Sys2Proof.Machine
end

