-- ==== Sys2Proof/Safety.lean ====
section
/-! DEFINITION. The terms the claims are stated in: frames (what stays as it was), the invariants of the machine, and
what counts as a safe state. -/

namespace Sys2Proof.Machine

/-! ## Frames -/

/-- The components of State, by name. -/
inductive Comp where
  | regs | i | pc | stack | dt | st | es | mem | fb | keys | cip | accI | accT | params | draws | dumps | agenda
deriving DecidableEq, Repr

/-- The component has the same value in both states. Registers, memory, pixels and keys are compared by reading each
one. -/
def Comp.same : Comp → State → State → Prop
  | .regs, s, t => ∀ r, t.reg r = s.reg r
  | .i, s, t => t.i = s.i
  | .pc, s, t => t.pc = s.pc
  | .stack, s, t => t.stack = s.stack
  | .dt, s, t => t.dt = s.dt
  | .st, s, t => t.st = s.st
  | .es, s, t => t.es = s.es
  | .mem, s, t => ∀ a, t.byte a = s.byte a
  | .fb, s, t => ∀ r c, t.pixel r c = s.pixel r c
  | .keys, s, t => ∀ k, t.key k = s.key k
  | .cip, s, t => t.cip = s.cip
  | .accI, s, t => t.accI = s.accI
  | .accT, s, t => t.accT = s.accT
  | .params, s, t => t.params = s.params
  | .draws, s, t => t.draws = s.draws
  | .dumps, s, t => t.dumps = s.dumps
  | .agenda, s, t => t.agenda = s.agenda

/-- Every component but the named ones is the same in `t` as in `s`. -/
def SameBut (written : List Comp) (s t : State) : Prop := ∀ c, c ∉ written → c.same s t

/-- Every V register but the named ones is the same in `t` as in `s`. -/
def RegsBut (written : List RegNum) (s t : State) : Prop := ∀ r, r ∉ written → t.reg r = s.reg r

/-! ## Safe states -/

/-- The engine has halted on a fault (R258). -/
def State.isHalted (s : State) : Bool :=
  match s.es with
  | .running => false
  | .blockedOnKey _ => false
  | .halted _ => true

/-- A safe run is one whose states have not halted: `Halted` is never a successful end (R256). -/
def State.safe (s : State) : Bool := !s.isHalted

/-- The instruction the next step executes: none when it is no engine step, the engine is not running, the fetch faults
(R123) or the word is invalid (R129). -/
def State.currentInstr (s : State) : Option Instr :=
  match s.nextEvent, s.es, s.fetchWord with
  | .engineStep, .running, some w => (decodeWord w).toOption
  | _, _, _ => none

/-! ## The sprite a draw lays on the display (R213) -/

/-- The sprite bit that lands on row `r`, column `c` when `n` rows of the sprite at `I` are drawn from column `x0` and
row `y0`; `false` where none lands. -/
def State.spritePixel (s : State) (x0 y0 n r c : Nat) : Bool :=
  decide (y0 ≤ r ∧ r < y0 + n ∧ r ≤ 31 ∧ x0 ≤ c ∧ c < x0 + 8 ∧ c ≤ 63) &&
    spriteBit (s.byte (s.i.toNat + (r - y0))) (c - x0)

/-! ## Invariants -/

/-- The memory list is canonical: rising addresses below 4096, no entry equal to the reset contents. -/
def State.MemCanonical (s : State) : Prop := Memory.wf s.params s.mem = true

/-- "no execution reaches the wrap" (R29): `pc` and `cip` are at most 0x10FE, the largest target of `JP Vx,NNN`; and
every return address "lies in 2..4096" (R141). -/
def State.PcBounded (s : State) : Prop :=
  s.pc.toNat ≤ 0x10FE ∧ s.cip.toNat ≤ 0x10FE ∧ ∀ w ∈ s.stack, 2 ≤ w.toNat ∧ w.toNat ≤ 4096

/-- Both accumulators are non-negative and hold less than one period (R45, R46). -/
def State.AccBounded (s : State) : Prop :=
  0 ≤ s.accI ∧ s.accI < 1 / s.params.ips ∧ 0 ≤ s.accT ∧ s.accT < 1 / 60

end Sys2Proof.Machine
end

