-- ==== Sys2Proof/Certificates/Slice0/Obligations.lean ====
section
/-! DEFINITION. The statements for the provers. `s` is the state an instruction executes in: the fetch has already
advanced `pc` (R14), so "pc is unchanged" in a frame means `cip + 2`. `SameBut cs s t` says that every component of the
state but `cs` is the same (memory byte by byte), `RegsBut rs s t` that every V register but `rs` is. Two fields of State
are the model's own choice: the events to come stand in `agenda` (log entry 7), and `dumps` counts the diagnostic requests
of R255 (log entry 9); frames of a fault let `dumps` change, and EngineStateTransitionsAreComplete says by how much. -/

open Sys2Proof Sys2Proof.Machine

/-! ## Encoding -/

/-- Words written out from the spec's patterns, one or more of each format of R93, decode to what they stand for (R96;
the words of R64, F3, S1 to S8 and of rules R148, R213, R129), and three invalid ones to their class of R97. -/
def Obligations.SpecWordsDecode : Prop :=
  decodeWord 0x00E0 = .ok .cls ∧ decodeWord 0x00EE = .ok .ret ∧ decodeWord 0x1ABC = .ok (.jp 0xABC) ∧
  decodeWord 0x7002 = .ok (.addImm 0 0x02) ∧
  decodeWord 0x8014 = .ok (.addReg 0 1) ∧ decodeWord 0x8AB4 = .ok (.addReg 0xA 0xB) ∧
  decodeWord 0xB210 = .ok (.jpOff 2 0x210) ∧ decodeWord 0xD12F = .ok (.drw 1 2 15) ∧
  decodeWord 0xE49E = .ok (.skp 4) ∧ decodeWord 0xF30A = .ok (.ldVxK 3) ∧ decodeWord 0xF155 = .ok (.ldMemVx 1) ∧
  decodeWord 0x0000 = .error .group0 ∧ decodeWord 0x5AB1 = .error .group5 ∧ decodeWord 0xEF00 = .error .groupE

/-- R92: the six fields are the documented bits of the word, and they overlap as documented. -/
def Obligations.FieldsAreTheDocumentedBits : Prop :=
  ∀ w : Word,
    (fieldOpcode w).val = w.toNat / 4096 ∧ (fieldX w).val = (w.toNat / 256) % 16 ∧
    (fieldY w).val = (w.toNat / 16) % 16 ∧ (fieldN w).val = w.toNat % 16 ∧
    (fieldNN w).toNat = w.toNat % 256 ∧ (fieldNNN w).toNat = w.toNat % 4096 ∧
    (fieldNNN w).toNat = (fieldX w).val * 256 + (fieldNN w).toNat ∧
    (fieldNN w).toNat = (fieldY w).val * 16 + (fieldN w).val

/-- Decoding the word of a well-formed instruction gives the instruction back, every operand at every value. -/
def Obligations.DecodeOfEncodeIsTheInstruction : Prop :=
  ∀ i : Instr, i.wf = true → decodeWord (encode i) = .ok i ∧ ∀ rest, decode (encodeBytes i ++ rest) = .ok (i, rest)

/-- A word that decodes is the encoding of what it decodes to, and what it decodes to is well-formed: no bit of a word
is dropped. -/
def Obligations.DecodedWordIsItsEncoding : Prop :=
  ∀ (w : Word) (i : Instr), decodeWord w = .ok i → i.wf = true ∧ encode i = w

/-- R99, with R96's "a word `w` is the instruction of a row exactly when `w & mask = match`": each word is an
instruction of a row exactly when it matches the row, it matches no two rows, and it is invalid exactly when it matches
none. A row is named by its match word. -/
def Obligations.WordIsOfARowExactlyWhenItMatches : Prop :=
  ∀ w : Word,
    (∀ i : Instr, (∃ j, decodeWord w = .ok j ∧ j.matchWord = i.matchWord) ↔ w &&& i.maskWord = i.matchWord) ∧
    (∀ i j : Instr, w &&& i.maskWord = i.matchWord → w &&& j.maskWord = j.matchWord → i.matchWord = j.matchWord) ∧
    ((∃ e, decodeWord w = .error e) ↔ ∀ i : Instr, w &&& i.maskWord ≠ i.matchWord)

/-- R97: the invalid words are exactly the six classes, each rejected under its own name. -/
def Obligations.InvalidWordsAreTheSixClasses : Prop :=
  ∀ w : Word,
    (decodeWord w = .error .group0 ↔ w.toNat / 4096 = 0x0 ∧ w.toNat ≠ 0x00E0 ∧ w.toNat ≠ 0x00EE) ∧
    (decodeWord w = .error .group5 ↔ w.toNat / 4096 = 0x5 ∧ w.toNat % 16 ≠ 0) ∧
    (decodeWord w = .error .group9 ↔ w.toNat / 4096 = 0x9 ∧ w.toNat % 16 ≠ 0) ∧
    (decodeWord w = .error .group8 ↔ w.toNat / 4096 = 0x8 ∧ w.toNat % 16 ∈ [0x8, 0x9, 0xA, 0xB, 0xC, 0xD, 0xF]) ∧
    (decodeWord w = .error .groupE ↔ w.toNat / 4096 = 0xE ∧ w.toNat % 256 ≠ 0x9E ∧ w.toNat % 256 ≠ 0xA1) ∧
    (decodeWord w = .error .groupF ↔
      w.toNat / 4096 = 0xF ∧ w.toNat % 256 ∉ [0x07, 0x0A, 0x15, 0x18, 0x1E, 0x29, 0x33, 0x55, 0x65]) ∧
    decodeWord w ≠ .error .truncated

/-! ## The engine step -/

/-- R121, R122: when the two bytes at `pc` decode to an instruction, an engine step of a running engine is that
instruction executed with `cip` at its address and `pc` 2 further; the event leaves the agenda. -/
def Obligations.StepRunsTheDecodedInstruction : Prop :=
  ∀ (s : State) (i : Instr), s.nextEvent = .engineStep → s.es = .running → s.pc.toNat + 1 < 4096 →
    decodeWord (BitVec.ofNat 16 ((s.byte s.pc.toNat).toNat * 256 + (s.byte (s.pc.toNat + 1)).toNat)) = .ok i →
    i.wf = true ∧
    step s = exec i { s with cip := s.pc, pc := BitVec.ofNat 16 (s.pc.toNat + 2), agenda := s.agenda.tail }

/-- R123: a fetch at `pc >= 4095` halts with `MemoryOutOfBounds`, `cip` at the bad `pc`, `pc` not advanced, nothing
executed. -/
def Obligations.FetchPastMemoryHalts : Prop :=
  ∀ s : State, s.nextEvent = .engineStep → s.es = .running → 4095 ≤ s.pc.toNat →
    ∃ t, step s = .next t ∧ t.es = .halted .memoryOutOfBounds ∧ t.cip = s.pc ∧ t.pc = s.pc ∧
      t.dumps = s.dumps + 1 ∧ t.agenda = s.agenda.tail ∧ SameBut [.es, .cip, .dumps, .agenda] s t

/-- R129, R251: an invalid word halts with `InvalidInstruction`; `cip` is its address, `pc` is 2 further, nothing else
changes, whatever the registers hold. -/
def Obligations.InvalidWordHalts : Prop :=
  ∀ (s : State) (e : DecodeError), s.nextEvent = .engineStep → s.es = .running → s.pc.toNat + 1 < 4096 →
    decodeWord (BitVec.ofNat 16 ((s.byte s.pc.toNat).toNat * 256 + (s.byte (s.pc.toNat + 1)).toNat)) = .error e →
    ∃ t, step s = .next t ∧ t.es = .halted .invalidInstruction ∧ t.cip = s.pc ∧ t.pc.toNat = s.pc.toNat + 2 ∧
      t.dumps = s.dumps + 1 ∧ t.agenda = s.agenda.tail ∧ SameBut [.es, .cip, .pc, .dumps, .agenda] s t

/-- R127, R128: an engine step of a blocked or halted engine changes no component of the state. -/
def Obligations.BlockedAndHaltedEngineStepsDoNothing : Prop :=
  ∀ s : State, s.nextEvent = .engineStep → s.es ≠ .running →
    ∃ t, step s = .next t ∧ t.agenda = s.agenda.tail ∧ SameBut [.agenda] s t

/-- A step answers a next state, but for the two host events the spec tells a model to refuse: a load past the end of
memory (R306) and a negative elapsed time (R273). No step of the engine or of the timer unit ever stops. -/
def Obligations.OnlyRefusedHostEventsStop : Prop :=
  ∀ s : State,
    (∃ t, step s = .next t) ∨
    (∃ bytes address, s.nextEvent = .loadProgram bytes address ∧ 4096 < address.toNat + bytes.length ∧
      step s = .refused .loadPastMemory) ∨
    (∃ elapsed order, s.nextEvent = .tick elapsed order ∧ elapsed < 0 ∧ step s = .refused .negativeElapsed)

/-- R28: where each engine step leaves `pc`, `p` being the address of the fetch: each instruction by its own rule, a
faulting one at `p + 2`, a fault at the fetch itself at `p`. (That a step is an
engine step: log entry 7. In the clauses of CALL and RET the head of `stack` is its top: log entry 11.) -/
def Obligations.PcAfterEachInstruction : Prop :=
  (∀ s : State, s.nextEvent = .engineStep → s.es = .running → s.currentInstr = none →
    ∃ t, step s = .next t ∧ t.isHalted = true ∧
      t.pc.toNat = (if 4095 ≤ s.pc.toNat then s.pc.toNat else s.pc.toNat + 2)) ∧
  ∀ (s : State) (i : Instr), s.currentInstr = some i →
    ∃ t, step s = .next t ∧ (t.isHalted = true → t.pc.toNat = s.pc.toNat + 2) ∧
      (t.isHalted = false →
        match i with
        | .jp nnn => t.pc.toNat = nnn.toNat
        | .call nnn => t.pc.toNat = nnn.toNat ∧ t.stack = BitVec.ofNat 16 (s.pc.toNat + 2) :: s.stack
        | .ret => s.stack = t.pc :: t.stack
        | .jpOff x nnn => t.pc.toNat = (nnn.toNat + (s.reg x).toNat) % 65536
        | .seImm x nn => t.pc.toNat = s.pc.toNat + (if s.reg x = nn then 4 else 2)
        | .sneImm x nn => t.pc.toNat = s.pc.toNat + (if s.reg x ≠ nn then 4 else 2)
        | .seReg x y => t.pc.toNat = s.pc.toNat + (if s.reg x = s.reg y then 4 else 2)
        | .sneReg x y => t.pc.toNat = s.pc.toNat + (if s.reg x ≠ s.reg y then 4 else 2)
        | .skp x => ∃ k : Fin 16, k.val = (s.reg x).toNat ∧ t.pc.toNat = s.pc.toNat + (if s.key k = true then 4 else 2)
        | .sknp x => ∃ k : Fin 16, k.val = (s.reg x).toNat ∧ t.pc.toNat = s.pc.toNat + (if s.key k = true then 2 else 4)
        | _ => t.pc.toNat = s.pc.toNat + 2)

/-! ## Control transfer (41_flow_and_skips.md) -/

/-- R141: the popped value goes to pc, an empty stack halts. The head of `stack` is its top (the model's choice, log entry
11); on the fault `dumps`, the model's counter of requests, is free here (log entry 9). -/
def Obligations.RetPopsTheStackOrUnderflows : Prop :=
  decodeWord 0x00EE = .ok .ret ∧
  (∀ (s : State) (w : Word) (rest : List Word), s.stack = w :: rest →
    ∃ t, exec .ret s = .next t ∧ t.pc = w ∧ t.stack = rest ∧ SameBut [.pc, .stack] s t) ∧
  (∀ s : State, s.stack = [] → s.es = .running →
    ∃ t, exec .ret s = .next t ∧ t.es = .halted .stackUnderflow ∧ SameBut [.es, .dumps] s t)

/-- R142, R143, R148: the two jumps and the call. `JP Vx,NNN` adds V[X], X being the top nibble of NNN, the one form an
encoding has. The pushed address stands at the head of `stack`, its top (the model's choice, log entry 11). -/
def Obligations.JumpsAndCallSetThePc : Prop :=
  (∀ (nnn : Addr12) (s : State), decodeWord (BitVec.ofNat 16 (0x1000 + nnn.toNat)) = .ok (.jp nnn) ∧
    ∃ t, exec (.jp nnn) s = .next t ∧ t.pc.toNat = nnn.toNat ∧ SameBut [.pc] s t) ∧
  (∀ (nnn : Addr12) (s : State), decodeWord (BitVec.ofNat 16 (0x2000 + nnn.toNat)) = .ok (.call nnn) ∧
    ∃ t, exec (.call nnn) s = .next t ∧ t.stack = s.pc :: s.stack ∧ t.pc.toNat = nnn.toNat ∧
      SameBut [.pc, .stack] s t) ∧
  (∀ (nnn : Addr12) (x : RegNum) (s : State), x.val = nnn.toNat / 256 →
    decodeWord (BitVec.ofNat 16 (0xB000 + nnn.toNat)) = .ok (.jpOff x nnn) ∧
    ∃ t, exec (.jpOff x nnn) s = .next t ∧ t.pc.toNat = nnn.toNat + (s.reg x).toNat ∧ SameBut [.pc] s t)

/-- R144, R145, R146, R147: the skips on register values; the wrap of `pc` at 65536 is that of R149 (the spec's decision
D8, log entry 13). -/
def Obligations.RegisterSkipsStepOverOneInstruction : Prop :=
  (∀ (x : RegNum) (nn : Byte) (s : State),
    decodeWord (BitVec.ofNat 16 (0x3000 + x.val * 256 + nn.toNat)) = .ok (.seImm x nn) ∧
    ∃ t, exec (.seImm x nn) s = .next t ∧
      t.pc.toNat = (if s.reg x = nn then (s.pc.toNat + 2) % 65536 else s.pc.toNat) ∧ SameBut [.pc] s t) ∧
  (∀ (x : RegNum) (nn : Byte) (s : State),
    decodeWord (BitVec.ofNat 16 (0x4000 + x.val * 256 + nn.toNat)) = .ok (.sneImm x nn) ∧
    ∃ t, exec (.sneImm x nn) s = .next t ∧
      t.pc.toNat = (if s.reg x ≠ nn then (s.pc.toNat + 2) % 65536 else s.pc.toNat) ∧ SameBut [.pc] s t) ∧
  (∀ (x y : RegNum) (s : State),
    decodeWord (BitVec.ofNat 16 (0x5000 + x.val * 256 + y.val * 16)) = .ok (.seReg x y) ∧
    ∃ t, exec (.seReg x y) s = .next t ∧
      t.pc.toNat = (if s.reg x = s.reg y then (s.pc.toNat + 2) % 65536 else s.pc.toNat) ∧ SameBut [.pc] s t) ∧
  (∀ (x y : RegNum) (s : State),
    decodeWord (BitVec.ofNat 16 (0x9000 + x.val * 256 + y.val * 16)) = .ok (.sneReg x y) ∧
    ∃ t, exec (.sneReg x y) s = .next t ∧
      t.pc.toNat = (if s.reg x ≠ s.reg y then (s.pc.toNat + 2) % 65536 else s.pc.toNat) ∧ SameBut [.pc] s t)

/-! ## Loads, arithmetic, random (42_load_alu_random.md) -/

/-- R162, R163, R164: one register is written, VF only when it is the destination. -/
def Obligations.LoadsAndAddImmediateWriteOneRegister : Prop :=
  (∀ (x : RegNum) (nn : Byte) (s : State),
    decodeWord (BitVec.ofNat 16 (0x6000 + x.val * 256 + nn.toNat)) = .ok (.ldImm x nn) ∧
    ∃ t, exec (.ldImm x nn) s = .next t ∧ t.reg x = nn ∧ RegsBut [x] s t ∧ SameBut [.regs] s t) ∧
  (∀ (x : RegNum) (nn : Byte) (s : State),
    decodeWord (BitVec.ofNat 16 (0x7000 + x.val * 256 + nn.toNat)) = .ok (.addImm x nn) ∧
    ∃ t, exec (.addImm x nn) s = .next t ∧ (t.reg x).toNat = ((s.reg x).toNat + nn.toNat) % 256 ∧
      RegsBut [x] s t ∧ SameBut [.regs] s t) ∧
  (∀ (x y : RegNum) (s : State),
    decodeWord (BitVec.ofNat 16 (0x8000 + x.val * 256 + y.val * 16)) = .ok (.ldReg x y) ∧
    ∃ t, exec (.ldReg x y) s = .next t ∧ t.reg x = s.reg y ∧ RegsBut [x] s t ∧ SameBut [.regs] s t)

/-- R165, R166, R167: OR, AND, XOR, bit by bit; VF is written only when it is the destination, which is the spec's own
reading (D6, log entry 13). -/
def Obligations.LogicWritesOneRegisterBitByBit : Prop :=
  (∀ (x y : RegNum) (s : State),
    decodeWord (BitVec.ofNat 16 (0x8001 + x.val * 256 + y.val * 16)) = .ok (.orReg x y) ∧
    ∃ t, exec (.orReg x y) s = .next t ∧
      (∀ b, (t.reg x).getLsbD b = ((s.reg x).getLsbD b || (s.reg y).getLsbD b)) ∧
      RegsBut [x] s t ∧ SameBut [.regs] s t) ∧
  (∀ (x y : RegNum) (s : State),
    decodeWord (BitVec.ofNat 16 (0x8002 + x.val * 256 + y.val * 16)) = .ok (.andReg x y) ∧
    ∃ t, exec (.andReg x y) s = .next t ∧
      (∀ b, (t.reg x).getLsbD b = ((s.reg x).getLsbD b && (s.reg y).getLsbD b)) ∧
      RegsBut [x] s t ∧ SameBut [.regs] s t) ∧
  (∀ (x y : RegNum) (s : State),
    decodeWord (BitVec.ofNat 16 (0x8003 + x.val * 256 + y.val * 16)) = .ok (.xorReg x y) ∧
    ∃ t, exec (.xorReg x y) s = .next t ∧
      (∀ b, (t.reg x).getLsbD b = ((s.reg x).getLsbD b ^^ (s.reg y).getLsbD b)) ∧
      RegsBut [x] s t ∧ SameBut [.regs] s t)

/-- R168: the sum modulo 256, VF the carry; with X = F the carry survives, which is the spec's own decision (D4, R161; log
entry 13). -/
def Obligations.AddWritesSumAndCarry : Prop :=
  ∀ (x y : RegNum) (s : State),
    decodeWord (BitVec.ofNat 16 (0x8004 + x.val * 256 + y.val * 16)) = .ok (.addReg x y) ∧
    ∃ t, exec (.addReg x y) s = .next t ∧
      (x ≠ 15 → (t.reg x).toNat = ((s.reg x).toNat + (s.reg y).toNat) % 256) ∧
      (t.reg 15).toNat = (if (s.reg x).toNat + (s.reg y).toNat > 255 then 1 else 0) ∧
      RegsBut [x, 15] s t ∧ SameBut [.regs] s t

/-- R169, R171: the difference modulo 256 (256 added when it is negative), VF 1 exactly when the minuend is strictly
greater; that with X = F the flag survives is the spec's own decision (D4, R161; log entry 13). -/
def Obligations.SubtractionsWriteDifferenceAndStrictFlag : Prop :=
  (∀ (x y : RegNum) (s : State),
    decodeWord (BitVec.ofNat 16 (0x8005 + x.val * 256 + y.val * 16)) = .ok (.sub x y) ∧
    ∃ t, exec (.sub x y) s = .next t ∧
      (x ≠ 15 → (t.reg x).toNat = ((s.reg x).toNat + 256 - (s.reg y).toNat) % 256) ∧
      (t.reg 15).toNat = (if (s.reg x).toNat > (s.reg y).toNat then 1 else 0) ∧
      RegsBut [x, 15] s t ∧ SameBut [.regs] s t) ∧
  (∀ (x y : RegNum) (s : State),
    decodeWord (BitVec.ofNat 16 (0x8007 + x.val * 256 + y.val * 16)) = .ok (.subn x y) ∧
    ∃ t, exec (.subn x y) s = .next t ∧
      (x ≠ 15 → (t.reg x).toNat = ((s.reg y).toNat + 256 - (s.reg x).toNat) % 256) ∧
      (t.reg 15).toNat = (if (s.reg y).toNat > (s.reg x).toNat then 1 else 0) ∧
      RegsBut [x, 15] s t ∧ SameBut [.regs] s t)

/-- R170, R172: V[X] shifted in place by one, VF the bit shifted out of the old value; all 16 values of Y are the same
instruction. That with X = F the flag survives is the spec's own decision (D4, R161; log entry 13). -/
def Obligations.ShiftsMoveVxInPlaceAndIgnoreY : Prop :=
  (∀ (x y : RegNum) (s : State),
    decodeWord (BitVec.ofNat 16 (0x8006 + x.val * 256 + y.val * 16)) = .ok (.shr x y) ∧
    ∃ t, exec (.shr x y) s = .next t ∧ (∀ y', exec (.shr x y') s = exec (.shr x y) s) ∧
      (x ≠ 15 → (t.reg x).toNat = (s.reg x).toNat / 2) ∧ (t.reg 15).toNat = (s.reg x).toNat % 2 ∧
      RegsBut [x, 15] s t ∧ SameBut [.regs] s t) ∧
  (∀ (x y : RegNum) (s : State),
    decodeWord (BitVec.ofNat 16 (0x800E + x.val * 256 + y.val * 16)) = .ok (.shl x y) ∧
    ∃ t, exec (.shl x y) s = .next t ∧ (∀ y', exec (.shl x y') s = exec (.shl x y) s) ∧
      (x ≠ 15 → (t.reg x).toNat = (s.reg x).toNat * 2 % 256) ∧ (t.reg 15).toNat = (s.reg x).toNat / 128 ∧
      RegsBut [x, 15] s t ∧ SameBut [.regs] s t)

/-- R177: V[X] is the drawn byte under the mask, whatever byte is drawn (`Config.drawByte` is a free value); exactly one
byte is drawn, and no other instruction draws. -/
def Obligations.RndMasksOneFreeByte : Prop :=
  (∀ (x : RegNum) (nn : Byte) (s : State),
    decodeWord (BitVec.ofNat 16 (0xC000 + x.val * 256 + nn.toNat)) = .ok (.rnd x nn) ∧
    ∃ t, exec (.rnd x nn) s = .next t ∧ t.reg x = Config.drawByte s.draws &&& nn ∧ t.reg x &&& ~~~nn = 0 ∧
      t.draws = s.draws + 1 ∧ RegsBut [x] s t ∧ SameBut [.regs, .draws] s t) ∧
  (∀ (i : Instr) (s t : State), exec i s = .next t → t.draws ≠ s.draws → ∃ x nn, i = .rnd x nn)

/-! ## Index register, loads and stores (43_index_and_memory.md) -/

/-- R191, R192, R193: the three writers of I; sums modulo 65536 and `FX29` with the whole byte, which are the spec's own
decisions (D7, D11; log entry 13), and no flag. -/
def Obligations.IndexInstructionsSetI : Prop :=
  (∀ (nnn : Addr12) (s : State), decodeWord (BitVec.ofNat 16 (0xA000 + nnn.toNat)) = .ok (.ldI nnn) ∧
    ∃ t, exec (.ldI nnn) s = .next t ∧ t.i.toNat = nnn.toNat ∧ SameBut [.i] s t) ∧
  (∀ (x : RegNum) (s : State), decodeWord (BitVec.ofNat 16 (0xF01E + x.val * 256)) = .ok (.addI x) ∧
    ∃ t, exec (.addI x) s = .next t ∧ t.i.toNat = (s.i.toNat + (s.reg x).toNat) % 65536 ∧ SameBut [.i] s t) ∧
  (∀ (x : RegNum) (s : State), decodeWord (BitVec.ofNat 16 (0xF029 + x.val * 256)) = .ok (.ldF x) ∧
    ∃ t, exec (.ldF x) s = .next t ∧ t.i.toNat = (s.params.fontBase.val + 5 * (s.reg x).toNat) % 65536 ∧
      SameBut [.i] s t)

/-- R194: hundreds, tens, units at I, I + 1, I + 2, each where its address exists; the first address that does not
exist halts, the digits before it stay stored, which is the spec's own decision (D1, D3; log entry 13). -/
def Obligations.DecimalStoreWritesThreeDigits : Prop :=
  ∀ (x : RegNum) (s : State), decodeWord (BitVec.ofNat 16 (0xF033 + x.val * 256)) = .ok (.ldB x) ∧
    (s.es = .running →
      ∃ t, exec (.ldB x) s = .next t ∧
        (∀ a, (t.byte a).toNat =
          if a = s.effAddr 0 ∧ a < 4096 then (s.reg x).toNat / 100
          else if a = s.effAddr 1 ∧ a < 4096 then (s.reg x).toNat / 10 % 10
          else if a = s.effAddr 2 ∧ a < 4096 then (s.reg x).toNat % 10
          else (s.byte a).toNat) ∧
        (s.effAddr 2 < 4096 → SameBut [.mem] s t) ∧
        (4096 ≤ s.effAddr 2 → t.es = .halted .memoryOutOfBounds ∧ SameBut [.mem, .es, .dumps] s t))

/-- R195: V0..V[X] at I, I + 1, ..., I unchanged; the first address that does not exist halts, the bytes before it stay
stored. The fault, the kept bytes and I unchanged are the spec's own decisions (D1, D3, D5; log entry 13). -/
def Obligations.RegisterBlockStore : Prop :=
  ∀ (x : RegNum) (s : State), decodeWord (BitVec.ofNat 16 (0xF055 + x.val * 256)) = .ok (.ldMemVx x) ∧
    (s.es = .running →
      ∃ t, exec (.ldMemVx x) s = .next t ∧
        (∀ r : RegNum, r.val ≤ x.val → s.effAddr r.val < 4096 → t.byte (s.effAddr r.val) = s.reg r) ∧
        (∀ a, (∀ r : RegNum, r.val ≤ x.val → s.effAddr r.val < 4096 → a ≠ s.effAddr r.val) →
          t.byte a = s.byte a) ∧
        (s.effAddr x.val < 4096 → SameBut [.mem] s t) ∧
        (4096 ≤ s.effAddr x.val → t.es = .halted .memoryOutOfBounds ∧ SameBut [.mem, .es, .dumps] s t))

/-- R196: V0..V[X] from I, I + 1, ..., I and memory unchanged; the first address that does not exist halts, the
registers before it stay loaded. The fault, the kept registers and I unchanged are the spec's own decisions (D1, D3, D5;
log entry 13). -/
def Obligations.RegisterBlockLoad : Prop :=
  ∀ (x : RegNum) (s : State), decodeWord (BitVec.ofNat 16 (0xF065 + x.val * 256)) = .ok (.ldVxMem x) ∧
    (s.es = .running →
      ∃ t, exec (.ldVxMem x) s = .next t ∧
        (∀ r : RegNum, t.reg r =
          if r.val ≤ x.val ∧ s.effAddr r.val < 4096 then s.byte (s.effAddr r.val) else s.reg r) ∧
        (s.effAddr x.val < 4096 → SameBut [.regs] s t) ∧
        (4096 ≤ s.effAddr x.val → t.es = .halted .memoryOutOfBounds ∧ SameBut [.regs, .es, .dumps] s t))

/-! ## Display (44_display.md) -/

/-- R211: all 2048 cells 0, nothing else. -/
def Obligations.ClearTurnsEveryCellOff : Prop :=
  decodeWord 0x00E0 = .ok .cls ∧
  ∀ s : State, ∃ t, exec .cls s = .next t ∧ (∀ r c, t.pixel r c = false) ∧ SameBut [.fb] s t

/-- The pseudocode, flag and fault clauses of R213. With `d` the rows whose byte exists, the sprite bits of the first
`d` rows are XORed into the cells they land on and no other cell changes; VF is 1 exactly when one of them met a lit
cell, else 0; a draw whose rows do not all have a byte halts. (Corner case (10) of R213 is not claimed: log entry 16.) -/
def Obligations.DrawXorsTheSpriteAndReportsCollision : Prop :=
  ∀ (x y : RegNum) (n : Fin 16) (s : State) (x0 y0 d : Nat),
    x0 = (s.reg x).toNat % 64 → y0 = (s.reg y).toNat % 32 → d = min n.val (4096 - s.i.toNat) →
    decodeWord (BitVec.ofNat 16 (0xD000 + x.val * 256 + y.val * 16 + n.val)) = .ok (.drw x y n) ∧
    (s.es = .running →
      ∃ t, exec (.drw x y n) s = .next t ∧
        (∀ r c, t.pixel r c = (s.pixel r c ^^ s.spritePixel x0 y0 d r c)) ∧
        ((∃ r c, s.spritePixel x0 y0 d r c = true ∧ s.pixel r c = true) → t.reg 15 = 1) ∧
        ((¬ ∃ r c, s.spritePixel x0 y0 d r c = true ∧ s.pixel r c = true) → t.reg 15 = 0) ∧
        RegsBut [15] s t ∧
        (d = n.val → SameBut [.regs, .fb] s t) ∧
        (d < n.val → t.es = .halted .memoryOutOfBounds ∧ SameBut [.regs, .fb, .es, .dumps] s t))

/-- R214 (c): two identical complete draws leave the display as it was. The second sets VF exactly when some drawn bit
lands on a cell that was off before the first, so over a clear display it does (S5). X and Y are not F, since the
first draw writes VF and the second would then start elsewhere. -/
def Obligations.DrawingTwiceRestoresTheDisplay : Prop :=
  ∀ (x y : RegNum) (n : Fin 16) (s t u : State), x ≠ 15 → y ≠ 15 → s.i.toNat + n.val ≤ 4096 →
    exec (.drw x y n) s = .next t → exec (.drw x y n) t = .next u →
    (∀ r c, u.pixel r c = s.pixel r c) ∧
    (u.reg 15 = 1 ↔
      ∃ r c, s.spritePixel ((s.reg x).toNat % 64) ((s.reg y).toNat % 32) n.val r c = true ∧ s.pixel r c = false)

/-! ## Timers and keys (45_timers_and_keys.md) -/

/-- R231, R232: the key skips, and the fault of a key number above 15, which is not masked: the spec's own decision (D10,
log entry 13). -/
def Obligations.KeySkipsTestOneKey : Prop :=
  ∀ (x : RegNum) (s : State),
    decodeWord (BitVec.ofNat 16 (0xE09E + x.val * 256)) = .ok (.skp x) ∧
    decodeWord (BitVec.ofNat 16 (0xE0A1 + x.val * 256)) = .ok (.sknp x) ∧
    (∀ k : Fin 16, (s.reg x).toNat = k.val →
      (∃ t, exec (.skp x) s = .next t ∧
        t.pc.toNat = (if s.key k = true then (s.pc.toNat + 2) % 65536 else s.pc.toNat) ∧ SameBut [.pc] s t) ∧
      (∃ t, exec (.sknp x) s = .next t ∧
        t.pc.toNat = (if s.key k = true then s.pc.toNat else (s.pc.toNat + 2) % 65536) ∧ SameBut [.pc] s t)) ∧
    (15 < (s.reg x).toNat → s.es = .running →
      (∃ t, exec (.skp x) s = .next t ∧ t.es = .halted .inputOutOfBounds ∧ SameBut [.es, .dumps] s t) ∧
      (∃ t, exec (.sknp x) s = .next t ∧ t.es = .halted .inputOutOfBounds ∧ SameBut [.es, .dumps] s t))

/-- R233, R234, R235: the three timer instructions. -/
def Obligations.TimerInstructionsMoveOneByte : Prop :=
  ∀ (x : RegNum) (s : State),
    decodeWord (BitVec.ofNat 16 (0xF007 + x.val * 256)) = .ok (.ldVxDt x) ∧
    decodeWord (BitVec.ofNat 16 (0xF015 + x.val * 256)) = .ok (.ldDtVx x) ∧
    decodeWord (BitVec.ofNat 16 (0xF018 + x.val * 256)) = .ok (.ldStVx x) ∧
    (∃ t, exec (.ldVxDt x) s = .next t ∧ t.reg x = s.dt ∧ RegsBut [x] s t ∧ SameBut [.regs] s t) ∧
    (∃ t, exec (.ldDtVx x) s = .next t ∧ t.dt = s.reg x ∧ SameBut [.dt] s t) ∧
    (∃ t, exec (.ldStVx x) s = .next t ∧ t.st = s.reg x ∧ SameBut [.st] s t)

/-- R236: the key wait blocks the engine and nothing else, whatever keys are held; the press of a key in 0..15 then
writes its number and ends the wait, with `pc` where it was. -/
def Obligations.KeyWaitBlocksUntilAPress : Prop :=
  (∀ (x : RegNum) (s : State), decodeWord (BitVec.ofNat 16 (0xF00A + x.val * 256)) = .ok (.ldVxK x) ∧
    ∃ t, exec (.ldVxK x) s = .next t ∧ t.es = .blockedOnKey x ∧ SameBut [.es] s t) ∧
  (∀ (x : RegNum) (k : Fin 16) (s : State) (rest : List Event), s.es = .blockedOnKey x →
    s.agenda = .pressKey (k.val : Int) :: rest →
    ∃ t, step s = .next t ∧ t.es = .running ∧ (t.reg x).toNat = k.val ∧ RegsBut [x] s t ∧
      (∀ n, t.key n = (decide (n = k) || s.key n)) ∧ t.agenda = rest ∧ SameBut [.es, .regs, .keys, .agenda] s t)

/-! ## Faults (60_exceptions.md) -/

/-- R255: a fault halts a running or blocked engine, keeps the first fault, signals the diagnostic request when `es`
changes, and saves and redirects nothing. -/
def Obligations.RaiseHaltsAndKeepsTheFirstFault : Prop :=
  ∀ (s : State) (f : FaultKind),
    ((∀ g, s.es ≠ .halted g) → (s.raise f).es = .halted f ∧ (s.raise f).dumps = s.dumps + 1 ∧
      SameBut [.es, .dumps] s (s.raise f)) ∧
    (∀ g, s.es = .halted g → s.raise f = s)

/-- R257: each instruction has at most one kind of fault of its own, and most have none. -/
def Obligations.EachInstructionHasOneFaultKind : Prop :=
  ∀ (i : Instr) (s t : State) (f : FaultKind), s.es = .running → exec i s = .next t → t.es = .halted f →
    (i = .ret ∧ f = .stackUnderflow) ∨
    ((∃ x, i = .skp x ∨ i = .sknp x) ∧ f = .inputOutOfBounds) ∨
    (((∃ x y n, i = .drw x y n) ∨ ∃ x, i = .ldB x ∨ i = .ldMemVx x ∨ i = .ldVxMem x) ∧ f = .memoryOutOfBounds)

/-- R258, R301: nothing but `reset` leaves `halted`, and of a halted block a step changes only the keys, the timers, the
accumulators and the events to come, and with `load_program` memory, `pc` and `cip` as well. -/
def Obligations.OnlyResetLeavesHalted : Prop :=
  ∀ (s t : State) (f : FaultKind), s.es = .halted f → step s = .next t → s.nextEvent ≠ .reset →
    SameBut [.mem, .pc, .cip, .keys, .dt, .st, .accI, .accT, .agenda] s t ∧
    ((∀ bytes address, s.nextEvent ≠ .loadProgram bytes address) →
      SameBut [.keys, .dt, .st, .accI, .accT, .agenda] s t)

/-- R35: the transitions of the engine state, complete. -/
def Obligations.EngineStateTransitionsAreComplete : Prop :=
  ∀ s t : State, step s = .next t → t.es ≠ s.es →
    (s.es = .running ∧ ∃ x, s.currentInstr = some (.ldVxK x) ∧ t.es = .blockedOnKey x) ∨
    (∃ r k, s.es = .blockedOnKey r ∧ s.nextEvent = .pressKey k ∧ 0 ≤ k ∧ k < 16 ∧ t.es = .running) ∨
    (∃ f, (∀ g, s.es ≠ .halted g) ∧ t.es = .halted f ∧ t.dumps = s.dumps + 1) ∨
    (s.nextEvent = .reset ∧ t.es = .running)

/-! ## The timer unit and the host's events -/

/-- R271: the timer step, in every engine state. -/
def Obligations.TimerStepCountsBothDown : Prop :=
  ∀ (s : State) (rest : List Event), s.agenda = .timerStep :: rest →
    ∃ t, step s = .next t ∧ t.dt.toNat = s.dt.toNat - 1 ∧ t.st.toNat = s.st.toNat - 1 ∧ t.agenda = rest ∧
      SameBut [.dt, .st, .agenda] s t

/-- R273: a tick adds the elapsed time to both accumulators, consumes the whole periods, and releases, before anything
else, as many engine steps and timer steps as periods were consumed; a negative time is refused. -/
def Obligations.TickReleasesTheStepsThatFellDue : Prop :=
  ∀ (s : State) (elapsed : Rat) (order : List Bool) (rest : List Event), s.agenda = .tick elapsed order :: rest →
    (elapsed < 0 → step s = .refused .negativeElapsed) ∧
    (0 ≤ elapsed → 0 ≤ s.accI → 0 ≤ s.accT →
      ∃ (t : State) (released : List Event), step s = .next t ∧ t.agenda = released ++ rest ∧
        (∀ e ∈ released, e = .engineStep ∨ e = .timerStep) ∧
        s.accI + elapsed = released.count .engineStep / s.params.ips + t.accI ∧
        0 ≤ t.accI ∧ t.accI < 1 / s.params.ips ∧
        s.accT + elapsed = released.count .timerStep / 60 + t.accT ∧ 0 ≤ t.accT ∧ t.accT < 1 / 60 ∧
        SameBut [.accI, .accT, .agenda] s t)

/-- R274: what a tick can release is exactly the merges of the engine steps and timer steps that fell due (as many as
there are whole periods in the accumulators): each such list is what the step puts on the agenda under some `order`, and
every `order` makes it put such a list there. -/
def Obligations.EveryMergeOfATickIsAdmitted : Prop :=
  ∀ (s : State) (elapsed : Rat) (rest released : List Event), 0 ≤ elapsed → 0 ≤ s.accI → 0 ≤ s.accT →
    (((∀ e ∈ released, e = .engineStep ∨ e = .timerStep) ∧
      (released.count .engineStep / s.params.ips ≤ s.accI + elapsed ∧
        s.accI + elapsed < (released.count .engineStep + 1) / s.params.ips) ∧
      (released.count .timerStep / 60 ≤ s.accT + elapsed ∧
        s.accT + elapsed < (released.count .timerStep + 1) / 60)) ↔
      ∃ (order : List Bool) (t : State),
        step { s with agenda := .tick elapsed order :: rest } = .next t ∧ t.agenda = released ++ rest)

/-- R273, R272, R127, R128 together: a tick of a block whose engine is blocked or halted, with the steps it releases
run, counts the timers down by the timer steps that fell due (floored at 0) and otherwise changes the accumulators
only. -/
def Obligations.TickOfAStoppedEngineOnlyCountsTimers : Prop :=
  ∀ (s : State) (elapsed : Rat) (order : List Bool) (rest : List Event), s.es ≠ .running →
    s.agenda = .tick elapsed order :: rest → 0 ≤ elapsed → 0 ≤ s.accI → 0 ≤ s.accT →
    ∃ (ni nt : Nat) (t : State), Host.Core.run Sys2Proof.core (1 + ni + nt) s = .next t ∧
      s.accI + elapsed = ni / s.params.ips + t.accI ∧ 0 ≤ t.accI ∧ t.accI < 1 / s.params.ips ∧
      s.accT + elapsed = nt / 60 + t.accT ∧ 0 ≤ t.accT ∧ t.accT < 1 / 60 ∧
      t.dt.toNat = s.dt.toNat - nt ∧ t.st.toNat = s.st.toNat - nt ∧ t.agenda = rest ∧
      SameBut [.dt, .st, .accI, .accT, .agenda] s t

/-- R277, R278, R280: the press and the release of a key in 0..15 in every engine state. -/
def Obligations.ValidKeyEventsSetOneKey : Prop :=
  (∀ (s : State) (k : Fin 16) (rest : List Event), s.agenda = .pressKey (k.val : Int) :: rest →
    ∃ t, step s = .next t ∧ (∀ n, t.key n = (decide (n = k) || s.key n)) ∧ t.agenda = rest ∧
      (∀ r, s.es = .blockedOnKey r → t.es = .running ∧ (t.reg r).toNat = k.val ∧ RegsBut [r] s t ∧
        SameBut [.keys, .es, .regs, .agenda] s t) ∧
      ((∀ r, s.es ≠ .blockedOnKey r) → SameBut [.keys, .agenda] s t)) ∧
  (∀ (s : State) (k : Fin 16) (rest : List Event), s.agenda = .releaseKey (k.val : Int) :: rest →
    ∃ t, step s = .next t ∧ (∀ n, t.key n = (!decide (n = k) && s.key n)) ∧ t.agenda = rest ∧
      SameBut [.keys, .agenda] s t)

/-- R279: a press or release of a key outside 0..15 halts a running or blocked engine and does nothing else; a halted
engine stays as it is. -/
def Obligations.OutOfRangeKeyEventsHalt : Prop :=
  ∀ (s : State) (k : Int) (rest : List Event), (k < 0 ∨ 15 < k) →
    (s.agenda = .pressKey k :: rest ∨ s.agenda = .releaseKey k :: rest) →
    ∃ t, step s = .next t ∧ t.agenda = rest ∧
      ((∀ g, s.es ≠ .halted g) → t.es = .halted .inputOutOfBounds ∧ t.dumps = s.dumps + 1 ∧
        SameBut [.es, .dumps, .agenda] s t) ∧
      (∀ g, s.es = .halted g → SameBut [.agenda] s t)

/-- R305, R306: a load copies the bytes and sets `pc` and `cip`, in every engine state, and changes nothing else; a load
that does not fit is refused. -/
def Obligations.LoadCopiesTheImageOrIsRefused : Prop :=
  ∀ (s : State) (bytes : List Byte) (address : Word) (rest : List Event),
    s.agenda = .loadProgram bytes address :: rest →
    (address.toNat + bytes.length ≤ 4096 →
      ∃ t, step s = .next t ∧ t.pc = address ∧ t.cip = address ∧ t.agenda = rest ∧
        (∀ j (h : j < bytes.length), t.byte (address.toNat + j) = bytes[j]) ∧
        (∀ a, (a < address.toNat ∨ address.toNat + bytes.length ≤ a) → t.byte a = s.byte a) ∧
        SameBut [.mem, .pc, .cip, .agenda] s t) ∧
    (4096 < address.toNat + bytes.length → step s = .refused .loadPastMemory)

/-- R300, R48, R301: `reset` from any state, halted or not, leaves every component of R20 at its reset value, keeps the
parameters and leaves the random source alone. (`dumps` and `draws` are the model's own fields: log entries 5, 9.) -/
def Obligations.ResetEventGivesTheResetState : Prop :=
  ∀ (s : State) (rest : List Event), s.agenda = .reset :: rest →
    ∃ t, step s = .next t ∧ (∀ r, t.reg r = 0) ∧ t.i = 0 ∧ t.pc = 0 ∧ t.cip = 0 ∧ t.stack = [] ∧ t.dt = 0 ∧
      t.st = 0 ∧ t.es = .running ∧ (∀ r c, t.pixel r c = false) ∧ (∀ k, t.key k = false) ∧ t.accI = 0 ∧ t.accT = 0 ∧
      (∀ j : Fin 80, t.byte (s.params.fontBase.val + j.val) = s.params.fontData[j.val]) ∧
      (∀ a, (a < s.params.fontBase.val ∨ s.params.fontBase.val + 80 ≤ a) → t.byte a = 0) ∧
      t.params = s.params ∧ t.draws = s.draws ∧ t.agenda = rest

/-- The state the machine starts in has the values of R48, for every value of the parameters; `State.reset` is the one
for the default parameters (FONT_BASE 0x050 and the font table are PRESUMED: log entries 2, 3). -/
def Obligations.InitialStateHasTheResetValues : Prop :=
  State.reset = State.resetWith defaultParams ∧
  ∀ (p : Config.Params) (t : State), t = State.resetWith p →
    (∀ r, t.reg r = 0) ∧ t.i = 0 ∧ t.pc = 0 ∧ t.cip = 0 ∧ t.stack = [] ∧ t.dt = 0 ∧ t.st = 0 ∧ t.es = .running ∧
    (∀ r c, t.pixel r c = false) ∧ (∀ k, t.key k = false) ∧ t.accI = 0 ∧ t.accT = 0 ∧
    (∀ j : Fin 80, t.byte (p.fontBase.val + j.val) = p.fontData[j.val]) ∧
    (∀ a, (a < p.fontBase.val ∨ p.fontBase.val + 80 ≤ a) → t.byte a = 0)

/-- R282, R283, R284, R286: what the host reads. -/
def Obligations.ObservationsReadTheState : Prop :=
  ∀ s : State,
    (∀ r c (hr : r < 32) (hc : c < 64), (s.snapshotDisplay[r])[c] = s.pixel r c) ∧
    (s.soundActive = true ↔ 0 < s.st.toNat) ∧ s.engineStatus = s.es ∧
    s.dumpDiagnostics.2 = s.cip ∧ s.dumpDiagnostics.1.length = 4096 ∧
    (∀ a (h : a < 4096), s.dumpDiagnostics.1[a]? = some (s.byte a))

/-! ## Whole-machine rules -/

/-- Which instruction writes which component (R7, R26, R31, R33, R34, R38, R61): every change an instruction makes to a
component other than V, `pc`, `es` and the diagnostic history names the instructions that may make it, and no
instruction writes the keys, `cip`, the accumulators, the parameters or the agenda. -/
def Obligations.EachComponentHasItsWriters : Prop :=
  ∀ (i : Instr) (s t : State), exec i s = .next t →
    (t.i ≠ s.i → (∃ nnn, i = .ldI nnn) ∨ (∃ x, i = .addI x) ∨ ∃ x, i = .ldF x) ∧
    (t.stack ≠ s.stack → i = .ret ∨ ∃ nnn, i = .call nnn) ∧
    (t.dt ≠ s.dt → ∃ x, i = .ldDtVx x) ∧
    (t.st ≠ s.st → ∃ x, i = .ldStVx x) ∧
    (t.fb ≠ s.fb → i = .cls ∨ ∃ x y n, i = .drw x y n) ∧
    (t.mem ≠ s.mem → (∃ x, i = .ldB x) ∨ ∃ x, i = .ldMemVx x) ∧
    t.keys = s.keys ∧ t.cip = s.cip ∧ t.accI = s.accI ∧ t.accT = s.accT ∧ t.params = s.params ∧ t.agenda = s.agenda

/-- The writes column of R23, with R32: which V registers each instruction may change. -/
def Obligations.EachInstructionHasItsRegisters : Prop :=
  ∀ (i : Instr) (s t : State), exec i s = .next t →
    match i with
    | .ldImm x _ | .addImm x _ | .ldReg x _ | .orReg x _ | .andReg x _ | .xorReg x _ => RegsBut [x] s t
    | .rnd x _ | .ldVxDt x => RegsBut [x] s t
    | .addReg x _ | .sub x _ | .subn x _ | .shr x _ | .shl x _ => RegsBut [x, 15] s t
    | .drw _ _ _ => RegsBut [15] s t
    | .ldVxMem x => ∀ r : RegNum, x.val < r.val → t.reg r = s.reg r
    | _ => RegsBut [] s t

/-- No instruction reads `cip`, the accumulators or ST (R34, R44, R45, R46): changing them changes nothing else of what
an instruction does. -/
def Obligations.HiddenStateIsNotReadByInstructions : Prop :=
  ∀ (i : Instr) (s t : State) (c : Word) (a b : Rat) (q : Byte), exec i s = .next t →
    ∃ t', exec i { s with cip := c, accI := a, accT := b, st := q } = .next t' ∧
      SameBut [.cip, .accI, .accT, .st] t t'

/-- R275 (a): a timer goes up only by the instruction that sets it. -/
def Obligations.TimersRiseOnlyByTheirInstruction : Prop :=
  ∀ s t : State, step s = .next t →
    (s.dt.toNat < t.dt.toNat → ∃ x, s.currentInstr = some (.ldDtVx x)) ∧
    (s.st.toNat < t.st.toNat → ∃ x, s.currentInstr = some (.ldStVx x))

/-- R77: a store is seen by the very next fetch. After `LD [I],Vx` with X >= 1 has stored V0 and V1 at the next
instruction's address, the next engine step executes the instruction those two bytes are. -/
def Obligations.StoreIsSeenByTheNextFetch : Prop :=
  ∀ (x : RegNum) (s t : State) (j : Instr), 1 ≤ x.val → s.es = .running → s.nextEvent = .engineStep →
    s.i = s.pc → s.pc.toNat + x.val < 4096 → exec (.ldMemVx x) s = .next t →
    decodeWord (BitVec.ofNat 16 ((s.reg 0).toNat * 256 + (s.reg 1).toNat)) = .ok j →
    step t = exec j { t with cip := t.pc, pc := BitVec.ofNat 16 (t.pc.toNat + 2), agenda := t.agenda.tail }

/-- The parameters of R6 are fixed for a run: no step changes them (R301). -/
def Obligations.StepsKeepTheParameters : Prop :=
  ∀ s t : State, step s = .next t → t.params = s.params

/-! ## Memory and invariants -/

/-- The canonical form is canonical: memories of that form that read alike are the same data (the model's choice of
representation, INVENTORY.md). -/
def Obligations.CanonicalMemoriesThatReadAlikeAreEqual : Prop :=
  ∀ (p : Config.Params) (m n : Memory), Memory.wf p m = true → Memory.wf p n = true →
    (∀ a, Memory.read p m a = Memory.read p n a) → m = n

/-- Every step keeps the memory canonical: addresses below 4096, rising, no entry equal to the reset contents. -/
def Obligations.StepsKeepMemoryCanonical : Prop :=
  ∀ s t : State, s.MemCanonical → step s = .next t → t.MemCanonical

/-- R29 and the corner case of R141: every step keeps `pc` and `cip` at most 0x10FE and every return address in
2..4096, so no addition to `pc` ever wraps. -/
def Obligations.StepsKeepPcBounded : Prop :=
  ∀ s t : State, s.PcBounded → step s = .next t → t.PcBounded

/-- R45, R46: every step keeps both accumulators non-negative and below one period. -/
def Obligations.StepsKeepAccumulatorsBelowOnePeriod : Prop :=
  ∀ s t : State, s.AccBounded → step s = .next t → t.AccBounded

/-- The three invariants hold after reset, for every value of the parameters. -/
def Obligations.InvariantsHoldAfterReset : Prop :=
  ∀ p : Config.Params, (State.resetWith p).MemCanonical ∧ (State.resetWith p).PcBounded ∧ (State.resetWith p).AccBounded

/-- R305 with R6's fixed default of LOAD_ADDRESS: a load that names no address copies to 0x200 and sets `pc` and `cip`
there; the longest that fits is 3584 bytes, a longer one is refused. (Events: log entry 7; the refusal: log entry 10.) -/
def Obligations.LoadWithoutAnAddressGoesTo0x200 : Prop :=
  ∀ (s : State) (bytes : List Byte) (rest : List Event), s.agenda = .loadProgram bytes :: rest →
    (bytes.length ≤ 3584 →
      ∃ t, step s = .next t ∧ t.pc.toNat = 0x200 ∧ t.cip.toNat = 0x200 ∧ t.agenda = rest ∧
        (∀ j (h : j < bytes.length), t.byte (0x200 + j) = bytes[j]) ∧
        (∀ a, (a < 0x200 ∨ 0x200 + bytes.length ≤ a) → t.byte a = s.byte a) ∧
        SameBut [.mem, .pc, .cip, .agenda] s t) ∧
    (3584 < bytes.length → step s = .refused .loadPastMemory)
end

