-- ==== Sys2Proof/Laws/State.lean ====
section
/-! SUPPORT. What each update leaves in each component of the state: one lemma a component and update, and for the
components that are read by an index (registers, memory, pixels, keys) the lemma about the read. -/

namespace Sys2Proof.Machine

variable (s : State)

/-! ## `setReg` -/

@[simp] theorem State.setReg_v (r : RegNum) (b : Byte) : (s.setReg r b).v = s.v.set r.val b := rfl
@[simp] theorem State.setReg_i (r : RegNum) (b : Byte) : (s.setReg r b).i = s.i := rfl
@[simp] theorem State.setReg_pc (r : RegNum) (b : Byte) : (s.setReg r b).pc = s.pc := rfl
@[simp] theorem State.setReg_stack (r : RegNum) (b : Byte) : (s.setReg r b).stack = s.stack := rfl
@[simp] theorem State.setReg_dt (r : RegNum) (b : Byte) : (s.setReg r b).dt = s.dt := rfl
@[simp] theorem State.setReg_st (r : RegNum) (b : Byte) : (s.setReg r b).st = s.st := rfl
@[simp] theorem State.setReg_es (r : RegNum) (b : Byte) : (s.setReg r b).es = s.es := rfl
@[simp] theorem State.setReg_mem (r : RegNum) (b : Byte) : (s.setReg r b).mem = s.mem := rfl
@[simp] theorem State.setReg_fb (r : RegNum) (b : Byte) : (s.setReg r b).fb = s.fb := rfl
@[simp] theorem State.setReg_keys (r : RegNum) (b : Byte) : (s.setReg r b).keys = s.keys := rfl
@[simp] theorem State.setReg_cip (r : RegNum) (b : Byte) : (s.setReg r b).cip = s.cip := rfl
@[simp] theorem State.setReg_accI (r : RegNum) (b : Byte) : (s.setReg r b).accI = s.accI := rfl
@[simp] theorem State.setReg_accT (r : RegNum) (b : Byte) : (s.setReg r b).accT = s.accT := rfl
@[simp] theorem State.setReg_params (r : RegNum) (b : Byte) : (s.setReg r b).params = s.params := rfl
@[simp] theorem State.setReg_draws (r : RegNum) (b : Byte) : (s.setReg r b).draws = s.draws := rfl
@[simp] theorem State.setReg_dumps (r : RegNum) (b : Byte) : (s.setReg r b).dumps = s.dumps := rfl
@[simp] theorem State.setReg_agenda (r : RegNum) (b : Byte) : (s.setReg r b).agenda = s.agenda := rfl
@[simp] theorem State.setReg_byte (r : RegNum) (b : Byte) (a : Nat) : (s.setReg r b).byte a = s.byte a := rfl
@[simp] theorem State.setReg_pixel (r : RegNum) (b : Byte) (row col : Nat) : (s.setReg r b).pixel row col = s.pixel row col := rfl
@[simp] theorem State.setReg_key (r : RegNum) (b : Byte) (n : Fin 16) : (s.setReg r b).key n = s.key n := rfl

/-! ## `setFlag` -/

@[simp] theorem State.setFlag_i (f : Bool) : (s.setFlag f).i = s.i := rfl
@[simp] theorem State.setFlag_pc (f : Bool) : (s.setFlag f).pc = s.pc := rfl
@[simp] theorem State.setFlag_stack (f : Bool) : (s.setFlag f).stack = s.stack := rfl
@[simp] theorem State.setFlag_dt (f : Bool) : (s.setFlag f).dt = s.dt := rfl
@[simp] theorem State.setFlag_st (f : Bool) : (s.setFlag f).st = s.st := rfl
@[simp] theorem State.setFlag_es (f : Bool) : (s.setFlag f).es = s.es := rfl
@[simp] theorem State.setFlag_mem (f : Bool) : (s.setFlag f).mem = s.mem := rfl
@[simp] theorem State.setFlag_fb (f : Bool) : (s.setFlag f).fb = s.fb := rfl
@[simp] theorem State.setFlag_keys (f : Bool) : (s.setFlag f).keys = s.keys := rfl
@[simp] theorem State.setFlag_cip (f : Bool) : (s.setFlag f).cip = s.cip := rfl
@[simp] theorem State.setFlag_accI (f : Bool) : (s.setFlag f).accI = s.accI := rfl
@[simp] theorem State.setFlag_accT (f : Bool) : (s.setFlag f).accT = s.accT := rfl
@[simp] theorem State.setFlag_params (f : Bool) : (s.setFlag f).params = s.params := rfl
@[simp] theorem State.setFlag_draws (f : Bool) : (s.setFlag f).draws = s.draws := rfl
@[simp] theorem State.setFlag_dumps (f : Bool) : (s.setFlag f).dumps = s.dumps := rfl
@[simp] theorem State.setFlag_agenda (f : Bool) : (s.setFlag f).agenda = s.agenda := rfl
@[simp] theorem State.setFlag_byte (f : Bool) (a : Nat) : (s.setFlag f).byte a = s.byte a := rfl
@[simp] theorem State.setFlag_pixel (f : Bool) (row col : Nat) : (s.setFlag f).pixel row col = s.pixel row col := rfl
@[simp] theorem State.setFlag_key (f : Bool) (n : Fin 16) : (s.setFlag f).key n = s.key n := rfl

/-! ## `setResultThenFlag` -/

@[simp] theorem State.setResultThenFlag_i (x : RegNum) (b : Byte) (f : Bool) : (s.setResultThenFlag x b f).i = s.i := rfl
@[simp] theorem State.setResultThenFlag_pc (x : RegNum) (b : Byte) (f : Bool) : (s.setResultThenFlag x b f).pc = s.pc := rfl
@[simp] theorem State.setResultThenFlag_stack (x : RegNum) (b : Byte) (f : Bool) : (s.setResultThenFlag x b f).stack = s.stack := rfl
@[simp] theorem State.setResultThenFlag_dt (x : RegNum) (b : Byte) (f : Bool) : (s.setResultThenFlag x b f).dt = s.dt := rfl
@[simp] theorem State.setResultThenFlag_st (x : RegNum) (b : Byte) (f : Bool) : (s.setResultThenFlag x b f).st = s.st := rfl
@[simp] theorem State.setResultThenFlag_es (x : RegNum) (b : Byte) (f : Bool) : (s.setResultThenFlag x b f).es = s.es := rfl
@[simp] theorem State.setResultThenFlag_mem (x : RegNum) (b : Byte) (f : Bool) : (s.setResultThenFlag x b f).mem = s.mem := rfl
@[simp] theorem State.setResultThenFlag_fb (x : RegNum) (b : Byte) (f : Bool) : (s.setResultThenFlag x b f).fb = s.fb := rfl
@[simp] theorem State.setResultThenFlag_keys (x : RegNum) (b : Byte) (f : Bool) : (s.setResultThenFlag x b f).keys = s.keys := rfl
@[simp] theorem State.setResultThenFlag_cip (x : RegNum) (b : Byte) (f : Bool) : (s.setResultThenFlag x b f).cip = s.cip := rfl
@[simp] theorem State.setResultThenFlag_accI (x : RegNum) (b : Byte) (f : Bool) : (s.setResultThenFlag x b f).accI = s.accI := rfl
@[simp] theorem State.setResultThenFlag_accT (x : RegNum) (b : Byte) (f : Bool) : (s.setResultThenFlag x b f).accT = s.accT := rfl
@[simp] theorem State.setResultThenFlag_params (x : RegNum) (b : Byte) (f : Bool) : (s.setResultThenFlag x b f).params = s.params := rfl
@[simp] theorem State.setResultThenFlag_draws (x : RegNum) (b : Byte) (f : Bool) : (s.setResultThenFlag x b f).draws = s.draws := rfl
@[simp] theorem State.setResultThenFlag_dumps (x : RegNum) (b : Byte) (f : Bool) : (s.setResultThenFlag x b f).dumps = s.dumps := rfl
@[simp] theorem State.setResultThenFlag_agenda (x : RegNum) (b : Byte) (f : Bool) : (s.setResultThenFlag x b f).agenda = s.agenda := rfl
@[simp] theorem State.setResultThenFlag_byte (x : RegNum) (b : Byte) (f : Bool) (a : Nat) : (s.setResultThenFlag x b f).byte a = s.byte a := rfl
@[simp] theorem State.setResultThenFlag_pixel (x : RegNum) (b : Byte) (f : Bool) (row col : Nat) : (s.setResultThenFlag x b f).pixel row col = s.pixel row col := rfl
@[simp] theorem State.setResultThenFlag_key (x : RegNum) (b : Byte) (f : Bool) (n : Fin 16) : (s.setResultThenFlag x b f).key n = s.key n := rfl

/-! ## `setByte` -/

@[simp] theorem State.setByte_v (k : Nat) (b : Byte) : (s.setByte k b).v = s.v := rfl
@[simp] theorem State.setByte_i (k : Nat) (b : Byte) : (s.setByte k b).i = s.i := rfl
@[simp] theorem State.setByte_pc (k : Nat) (b : Byte) : (s.setByte k b).pc = s.pc := rfl
@[simp] theorem State.setByte_stack (k : Nat) (b : Byte) : (s.setByte k b).stack = s.stack := rfl
@[simp] theorem State.setByte_dt (k : Nat) (b : Byte) : (s.setByte k b).dt = s.dt := rfl
@[simp] theorem State.setByte_st (k : Nat) (b : Byte) : (s.setByte k b).st = s.st := rfl
@[simp] theorem State.setByte_es (k : Nat) (b : Byte) : (s.setByte k b).es = s.es := rfl
@[simp] theorem State.setByte_mem (k : Nat) (b : Byte) : (s.setByte k b).mem = Memory.write s.params s.mem k b := rfl
@[simp] theorem State.setByte_fb (k : Nat) (b : Byte) : (s.setByte k b).fb = s.fb := rfl
@[simp] theorem State.setByte_keys (k : Nat) (b : Byte) : (s.setByte k b).keys = s.keys := rfl
@[simp] theorem State.setByte_cip (k : Nat) (b : Byte) : (s.setByte k b).cip = s.cip := rfl
@[simp] theorem State.setByte_accI (k : Nat) (b : Byte) : (s.setByte k b).accI = s.accI := rfl
@[simp] theorem State.setByte_accT (k : Nat) (b : Byte) : (s.setByte k b).accT = s.accT := rfl
@[simp] theorem State.setByte_params (k : Nat) (b : Byte) : (s.setByte k b).params = s.params := rfl
@[simp] theorem State.setByte_draws (k : Nat) (b : Byte) : (s.setByte k b).draws = s.draws := rfl
@[simp] theorem State.setByte_dumps (k : Nat) (b : Byte) : (s.setByte k b).dumps = s.dumps := rfl
@[simp] theorem State.setByte_agenda (k : Nat) (b : Byte) : (s.setByte k b).agenda = s.agenda := rfl
@[simp] theorem State.setByte_reg (k : Nat) (b : Byte) (r : RegNum) : (s.setByte k b).reg r = s.reg r := rfl
@[simp] theorem State.setByte_pixel (k : Nat) (b : Byte) (row col : Nat) : (s.setByte k b).pixel row col = s.pixel row col := rfl
@[simp] theorem State.setByte_key (k : Nat) (b : Byte) (n : Fin 16) : (s.setByte k b).key n = s.key n := rfl

/-! ## `push` -/

@[simp] theorem State.push_v (w : Word) : (s.push w).v = s.v := rfl
@[simp] theorem State.push_i (w : Word) : (s.push w).i = s.i := rfl
@[simp] theorem State.push_pc (w : Word) : (s.push w).pc = s.pc := rfl
@[simp] theorem State.push_stack (w : Word) : (s.push w).stack = w :: s.stack := rfl
@[simp] theorem State.push_dt (w : Word) : (s.push w).dt = s.dt := rfl
@[simp] theorem State.push_st (w : Word) : (s.push w).st = s.st := rfl
@[simp] theorem State.push_es (w : Word) : (s.push w).es = s.es := rfl
@[simp] theorem State.push_mem (w : Word) : (s.push w).mem = s.mem := rfl
@[simp] theorem State.push_fb (w : Word) : (s.push w).fb = s.fb := rfl
@[simp] theorem State.push_keys (w : Word) : (s.push w).keys = s.keys := rfl
@[simp] theorem State.push_cip (w : Word) : (s.push w).cip = s.cip := rfl
@[simp] theorem State.push_accI (w : Word) : (s.push w).accI = s.accI := rfl
@[simp] theorem State.push_accT (w : Word) : (s.push w).accT = s.accT := rfl
@[simp] theorem State.push_params (w : Word) : (s.push w).params = s.params := rfl
@[simp] theorem State.push_draws (w : Word) : (s.push w).draws = s.draws := rfl
@[simp] theorem State.push_dumps (w : Word) : (s.push w).dumps = s.dumps := rfl
@[simp] theorem State.push_agenda (w : Word) : (s.push w).agenda = s.agenda := rfl
@[simp] theorem State.push_reg (w : Word) (r : RegNum) : (s.push w).reg r = s.reg r := rfl
@[simp] theorem State.push_byte (w : Word) (a : Nat) : (s.push w).byte a = s.byte a := rfl
@[simp] theorem State.push_pixel (w : Word) (row col : Nat) : (s.push w).pixel row col = s.pixel row col := rfl
@[simp] theorem State.push_key (w : Word) (n : Fin 16) : (s.push w).key n = s.key n := rfl

/-! ## `setPc` -/

@[simp] theorem State.setPc_v (w : Word) : (s.setPc w).v = s.v := rfl
@[simp] theorem State.setPc_i (w : Word) : (s.setPc w).i = s.i := rfl
@[simp] theorem State.setPc_pc (w : Word) : (s.setPc w).pc = w := rfl
@[simp] theorem State.setPc_stack (w : Word) : (s.setPc w).stack = s.stack := rfl
@[simp] theorem State.setPc_dt (w : Word) : (s.setPc w).dt = s.dt := rfl
@[simp] theorem State.setPc_st (w : Word) : (s.setPc w).st = s.st := rfl
@[simp] theorem State.setPc_es (w : Word) : (s.setPc w).es = s.es := rfl
@[simp] theorem State.setPc_mem (w : Word) : (s.setPc w).mem = s.mem := rfl
@[simp] theorem State.setPc_fb (w : Word) : (s.setPc w).fb = s.fb := rfl
@[simp] theorem State.setPc_keys (w : Word) : (s.setPc w).keys = s.keys := rfl
@[simp] theorem State.setPc_cip (w : Word) : (s.setPc w).cip = s.cip := rfl
@[simp] theorem State.setPc_accI (w : Word) : (s.setPc w).accI = s.accI := rfl
@[simp] theorem State.setPc_accT (w : Word) : (s.setPc w).accT = s.accT := rfl
@[simp] theorem State.setPc_params (w : Word) : (s.setPc w).params = s.params := rfl
@[simp] theorem State.setPc_draws (w : Word) : (s.setPc w).draws = s.draws := rfl
@[simp] theorem State.setPc_dumps (w : Word) : (s.setPc w).dumps = s.dumps := rfl
@[simp] theorem State.setPc_agenda (w : Word) : (s.setPc w).agenda = s.agenda := rfl
@[simp] theorem State.setPc_reg (w : Word) (r : RegNum) : (s.setPc w).reg r = s.reg r := rfl
@[simp] theorem State.setPc_byte (w : Word) (a : Nat) : (s.setPc w).byte a = s.byte a := rfl
@[simp] theorem State.setPc_pixel (w : Word) (row col : Nat) : (s.setPc w).pixel row col = s.pixel row col := rfl
@[simp] theorem State.setPc_key (w : Word) (n : Fin 16) : (s.setPc w).key n = s.key n := rfl

/-! ## `setI` -/

@[simp] theorem State.setI_v (w : Word) : (s.setI w).v = s.v := rfl
@[simp] theorem State.setI_i (w : Word) : (s.setI w).i = w := rfl
@[simp] theorem State.setI_pc (w : Word) : (s.setI w).pc = s.pc := rfl
@[simp] theorem State.setI_stack (w : Word) : (s.setI w).stack = s.stack := rfl
@[simp] theorem State.setI_dt (w : Word) : (s.setI w).dt = s.dt := rfl
@[simp] theorem State.setI_st (w : Word) : (s.setI w).st = s.st := rfl
@[simp] theorem State.setI_es (w : Word) : (s.setI w).es = s.es := rfl
@[simp] theorem State.setI_mem (w : Word) : (s.setI w).mem = s.mem := rfl
@[simp] theorem State.setI_fb (w : Word) : (s.setI w).fb = s.fb := rfl
@[simp] theorem State.setI_keys (w : Word) : (s.setI w).keys = s.keys := rfl
@[simp] theorem State.setI_cip (w : Word) : (s.setI w).cip = s.cip := rfl
@[simp] theorem State.setI_accI (w : Word) : (s.setI w).accI = s.accI := rfl
@[simp] theorem State.setI_accT (w : Word) : (s.setI w).accT = s.accT := rfl
@[simp] theorem State.setI_params (w : Word) : (s.setI w).params = s.params := rfl
@[simp] theorem State.setI_draws (w : Word) : (s.setI w).draws = s.draws := rfl
@[simp] theorem State.setI_dumps (w : Word) : (s.setI w).dumps = s.dumps := rfl
@[simp] theorem State.setI_agenda (w : Word) : (s.setI w).agenda = s.agenda := rfl
@[simp] theorem State.setI_reg (w : Word) (r : RegNum) : (s.setI w).reg r = s.reg r := rfl
@[simp] theorem State.setI_byte (w : Word) (a : Nat) : (s.setI w).byte a = s.byte a := rfl
@[simp] theorem State.setI_pixel (w : Word) (row col : Nat) : (s.setI w).pixel row col = s.pixel row col := rfl
@[simp] theorem State.setI_key (w : Word) (n : Fin 16) : (s.setI w).key n = s.key n := rfl

/-! ## `setKey` -/

@[simp] theorem State.setKey_v (k : Fin 16) (b : Bool) : (s.setKey k b).v = s.v := rfl
@[simp] theorem State.setKey_i (k : Fin 16) (b : Bool) : (s.setKey k b).i = s.i := rfl
@[simp] theorem State.setKey_pc (k : Fin 16) (b : Bool) : (s.setKey k b).pc = s.pc := rfl
@[simp] theorem State.setKey_stack (k : Fin 16) (b : Bool) : (s.setKey k b).stack = s.stack := rfl
@[simp] theorem State.setKey_dt (k : Fin 16) (b : Bool) : (s.setKey k b).dt = s.dt := rfl
@[simp] theorem State.setKey_st (k : Fin 16) (b : Bool) : (s.setKey k b).st = s.st := rfl
@[simp] theorem State.setKey_es (k : Fin 16) (b : Bool) : (s.setKey k b).es = s.es := rfl
@[simp] theorem State.setKey_mem (k : Fin 16) (b : Bool) : (s.setKey k b).mem = s.mem := rfl
@[simp] theorem State.setKey_fb (k : Fin 16) (b : Bool) : (s.setKey k b).fb = s.fb := rfl
@[simp] theorem State.setKey_keys (k : Fin 16) (b : Bool) : (s.setKey k b).keys = s.keys.set k.val b := rfl
@[simp] theorem State.setKey_cip (k : Fin 16) (b : Bool) : (s.setKey k b).cip = s.cip := rfl
@[simp] theorem State.setKey_accI (k : Fin 16) (b : Bool) : (s.setKey k b).accI = s.accI := rfl
@[simp] theorem State.setKey_accT (k : Fin 16) (b : Bool) : (s.setKey k b).accT = s.accT := rfl
@[simp] theorem State.setKey_params (k : Fin 16) (b : Bool) : (s.setKey k b).params = s.params := rfl
@[simp] theorem State.setKey_draws (k : Fin 16) (b : Bool) : (s.setKey k b).draws = s.draws := rfl
@[simp] theorem State.setKey_dumps (k : Fin 16) (b : Bool) : (s.setKey k b).dumps = s.dumps := rfl
@[simp] theorem State.setKey_agenda (k : Fin 16) (b : Bool) : (s.setKey k b).agenda = s.agenda := rfl
@[simp] theorem State.setKey_reg (k : Fin 16) (b : Bool) (r : RegNum) : (s.setKey k b).reg r = s.reg r := rfl
@[simp] theorem State.setKey_byte (k : Fin 16) (b : Bool) (a : Nat) : (s.setKey k b).byte a = s.byte a := rfl
@[simp] theorem State.setKey_pixel (k : Fin 16) (b : Bool) (row col : Nat) : (s.setKey k b).pixel row col = s.pixel row col := rfl

/-! ## `clearDisplay` -/

@[simp] theorem State.clearDisplay_v : (s.clearDisplay).v = s.v := rfl
@[simp] theorem State.clearDisplay_i : (s.clearDisplay).i = s.i := rfl
@[simp] theorem State.clearDisplay_pc : (s.clearDisplay).pc = s.pc := rfl
@[simp] theorem State.clearDisplay_stack : (s.clearDisplay).stack = s.stack := rfl
@[simp] theorem State.clearDisplay_dt : (s.clearDisplay).dt = s.dt := rfl
@[simp] theorem State.clearDisplay_st : (s.clearDisplay).st = s.st := rfl
@[simp] theorem State.clearDisplay_es : (s.clearDisplay).es = s.es := rfl
@[simp] theorem State.clearDisplay_mem : (s.clearDisplay).mem = s.mem := rfl
@[simp] theorem State.clearDisplay_keys : (s.clearDisplay).keys = s.keys := rfl
@[simp] theorem State.clearDisplay_cip : (s.clearDisplay).cip = s.cip := rfl
@[simp] theorem State.clearDisplay_accI : (s.clearDisplay).accI = s.accI := rfl
@[simp] theorem State.clearDisplay_accT : (s.clearDisplay).accT = s.accT := rfl
@[simp] theorem State.clearDisplay_params : (s.clearDisplay).params = s.params := rfl
@[simp] theorem State.clearDisplay_draws : (s.clearDisplay).draws = s.draws := rfl
@[simp] theorem State.clearDisplay_dumps : (s.clearDisplay).dumps = s.dumps := rfl
@[simp] theorem State.clearDisplay_agenda : (s.clearDisplay).agenda = s.agenda := rfl
@[simp] theorem State.clearDisplay_reg (r : RegNum) : (s.clearDisplay).reg r = s.reg r := rfl
@[simp] theorem State.clearDisplay_byte (a : Nat) : (s.clearDisplay).byte a = s.byte a := rfl
@[simp] theorem State.clearDisplay_key (n : Fin 16) : (s.clearDisplay).key n = s.key n := rfl

/-! ## `drawByte` -/

@[simp] theorem State.drawByte_v : (s.drawByte.2).v = s.v := rfl
@[simp] theorem State.drawByte_i : (s.drawByte.2).i = s.i := rfl
@[simp] theorem State.drawByte_pc : (s.drawByte.2).pc = s.pc := rfl
@[simp] theorem State.drawByte_stack : (s.drawByte.2).stack = s.stack := rfl
@[simp] theorem State.drawByte_dt : (s.drawByte.2).dt = s.dt := rfl
@[simp] theorem State.drawByte_st : (s.drawByte.2).st = s.st := rfl
@[simp] theorem State.drawByte_es : (s.drawByte.2).es = s.es := rfl
@[simp] theorem State.drawByte_mem : (s.drawByte.2).mem = s.mem := rfl
@[simp] theorem State.drawByte_fb : (s.drawByte.2).fb = s.fb := rfl
@[simp] theorem State.drawByte_keys : (s.drawByte.2).keys = s.keys := rfl
@[simp] theorem State.drawByte_cip : (s.drawByte.2).cip = s.cip := rfl
@[simp] theorem State.drawByte_accI : (s.drawByte.2).accI = s.accI := rfl
@[simp] theorem State.drawByte_accT : (s.drawByte.2).accT = s.accT := rfl
@[simp] theorem State.drawByte_params : (s.drawByte.2).params = s.params := rfl
@[simp] theorem State.drawByte_draws : (s.drawByte.2).draws = s.draws + 1 := rfl
@[simp] theorem State.drawByte_dumps : (s.drawByte.2).dumps = s.dumps := rfl
@[simp] theorem State.drawByte_agenda : (s.drawByte.2).agenda = s.agenda := rfl
@[simp] theorem State.drawByte_reg (r : RegNum) : (s.drawByte.2).reg r = s.reg r := rfl
@[simp] theorem State.drawByte_byte (a : Nat) : (s.drawByte.2).byte a = s.byte a := rfl
@[simp] theorem State.drawByte_pixel (row col : Nat) : (s.drawByte.2).pixel row col = s.pixel row col := rfl
@[simp] theorem State.drawByte_key (n : Fin 16) : (s.drawByte.2).key n = s.key n := rfl

/-! ## `timerStep` -/

@[simp] theorem State.timerStep_v : (s.timerStep).v = s.v := rfl
@[simp] theorem State.timerStep_i : (s.timerStep).i = s.i := rfl
@[simp] theorem State.timerStep_pc : (s.timerStep).pc = s.pc := rfl
@[simp] theorem State.timerStep_stack : (s.timerStep).stack = s.stack := rfl
@[simp] theorem State.timerStep_dt : (s.timerStep).dt = countDown s.dt := rfl
@[simp] theorem State.timerStep_st : (s.timerStep).st = countDown s.st := rfl
@[simp] theorem State.timerStep_es : (s.timerStep).es = s.es := rfl
@[simp] theorem State.timerStep_mem : (s.timerStep).mem = s.mem := rfl
@[simp] theorem State.timerStep_fb : (s.timerStep).fb = s.fb := rfl
@[simp] theorem State.timerStep_keys : (s.timerStep).keys = s.keys := rfl
@[simp] theorem State.timerStep_cip : (s.timerStep).cip = s.cip := rfl
@[simp] theorem State.timerStep_accI : (s.timerStep).accI = s.accI := rfl
@[simp] theorem State.timerStep_accT : (s.timerStep).accT = s.accT := rfl
@[simp] theorem State.timerStep_params : (s.timerStep).params = s.params := rfl
@[simp] theorem State.timerStep_draws : (s.timerStep).draws = s.draws := rfl
@[simp] theorem State.timerStep_dumps : (s.timerStep).dumps = s.dumps := rfl
@[simp] theorem State.timerStep_agenda : (s.timerStep).agenda = s.agenda := rfl
@[simp] theorem State.timerStep_reg (r : RegNum) : (s.timerStep).reg r = s.reg r := rfl
@[simp] theorem State.timerStep_byte (a : Nat) : (s.timerStep).byte a = s.byte a := rfl
@[simp] theorem State.timerStep_pixel (row col : Nat) : (s.timerStep).pixel row col = s.pixel row col := rfl
@[simp] theorem State.timerStep_key (n : Fin 16) : (s.timerStep).key n = s.key n := rfl

/-! ## `fetched` -/

@[simp] theorem State.fetched_v : (s.fetched).v = s.v := rfl
@[simp] theorem State.fetched_i : (s.fetched).i = s.i := rfl
@[simp] theorem State.fetched_pc : (s.fetched).pc = s.pc + 2 := rfl
@[simp] theorem State.fetched_stack : (s.fetched).stack = s.stack := rfl
@[simp] theorem State.fetched_dt : (s.fetched).dt = s.dt := rfl
@[simp] theorem State.fetched_st : (s.fetched).st = s.st := rfl
@[simp] theorem State.fetched_es : (s.fetched).es = s.es := rfl
@[simp] theorem State.fetched_mem : (s.fetched).mem = s.mem := rfl
@[simp] theorem State.fetched_fb : (s.fetched).fb = s.fb := rfl
@[simp] theorem State.fetched_keys : (s.fetched).keys = s.keys := rfl
@[simp] theorem State.fetched_cip : (s.fetched).cip = s.pc := rfl
@[simp] theorem State.fetched_accI : (s.fetched).accI = s.accI := rfl
@[simp] theorem State.fetched_accT : (s.fetched).accT = s.accT := rfl
@[simp] theorem State.fetched_params : (s.fetched).params = s.params := rfl
@[simp] theorem State.fetched_draws : (s.fetched).draws = s.draws := rfl
@[simp] theorem State.fetched_dumps : (s.fetched).dumps = s.dumps := rfl
@[simp] theorem State.fetched_agenda : (s.fetched).agenda = s.agenda := rfl
@[simp] theorem State.fetched_reg (r : RegNum) : (s.fetched).reg r = s.reg r := rfl
@[simp] theorem State.fetched_byte (a : Nat) : (s.fetched).byte a = s.byte a := rfl
@[simp] theorem State.fetched_pixel (row col : Nat) : (s.fetched).pixel row col = s.pixel row col := rfl
@[simp] theorem State.fetched_key (n : Fin 16) : (s.fetched).key n = s.key n := rfl

/-! ## `begin` -/

@[simp] theorem State.begin_v : (s.begin).v = s.v := rfl
@[simp] theorem State.begin_i : (s.begin).i = s.i := rfl
@[simp] theorem State.begin_pc : (s.begin).pc = s.pc := rfl
@[simp] theorem State.begin_stack : (s.begin).stack = s.stack := rfl
@[simp] theorem State.begin_dt : (s.begin).dt = s.dt := rfl
@[simp] theorem State.begin_st : (s.begin).st = s.st := rfl
@[simp] theorem State.begin_es : (s.begin).es = s.es := rfl
@[simp] theorem State.begin_mem : (s.begin).mem = s.mem := rfl
@[simp] theorem State.begin_fb : (s.begin).fb = s.fb := rfl
@[simp] theorem State.begin_keys : (s.begin).keys = s.keys := rfl
@[simp] theorem State.begin_cip : (s.begin).cip = s.cip := rfl
@[simp] theorem State.begin_accI : (s.begin).accI = s.accI := rfl
@[simp] theorem State.begin_accT : (s.begin).accT = s.accT := rfl
@[simp] theorem State.begin_params : (s.begin).params = s.params := rfl
@[simp] theorem State.begin_draws : (s.begin).draws = s.draws := rfl
@[simp] theorem State.begin_dumps : (s.begin).dumps = s.dumps := rfl
@[simp] theorem State.begin_agenda : (s.begin).agenda = s.agenda.tail := rfl
@[simp] theorem State.begin_reg (r : RegNum) : (s.begin).reg r = s.reg r := rfl
@[simp] theorem State.begin_byte (a : Nat) : (s.begin).byte a = s.byte a := rfl
@[simp] theorem State.begin_pixel (row col : Nat) : (s.begin).pixel row col = s.pixel row col := rfl
@[simp] theorem State.begin_key (n : Fin 16) : (s.begin).key n = s.key n := rfl

/-! ## `skipIf` -/

@[simp] theorem State.skipIf_v (c : Bool) : (s.skipIf c).v = s.v := by cases c <;> rfl
@[simp] theorem State.skipIf_i (c : Bool) : (s.skipIf c).i = s.i := by cases c <;> rfl
@[simp] theorem State.skipIf_stack (c : Bool) : (s.skipIf c).stack = s.stack := by cases c <;> rfl
@[simp] theorem State.skipIf_dt (c : Bool) : (s.skipIf c).dt = s.dt := by cases c <;> rfl
@[simp] theorem State.skipIf_st (c : Bool) : (s.skipIf c).st = s.st := by cases c <;> rfl
@[simp] theorem State.skipIf_es (c : Bool) : (s.skipIf c).es = s.es := by cases c <;> rfl
@[simp] theorem State.skipIf_mem (c : Bool) : (s.skipIf c).mem = s.mem := by cases c <;> rfl
@[simp] theorem State.skipIf_fb (c : Bool) : (s.skipIf c).fb = s.fb := by cases c <;> rfl
@[simp] theorem State.skipIf_keys (c : Bool) : (s.skipIf c).keys = s.keys := by cases c <;> rfl
@[simp] theorem State.skipIf_cip (c : Bool) : (s.skipIf c).cip = s.cip := by cases c <;> rfl
@[simp] theorem State.skipIf_accI (c : Bool) : (s.skipIf c).accI = s.accI := by cases c <;> rfl
@[simp] theorem State.skipIf_accT (c : Bool) : (s.skipIf c).accT = s.accT := by cases c <;> rfl
@[simp] theorem State.skipIf_params (c : Bool) : (s.skipIf c).params = s.params := by cases c <;> rfl
@[simp] theorem State.skipIf_draws (c : Bool) : (s.skipIf c).draws = s.draws := by cases c <;> rfl
@[simp] theorem State.skipIf_dumps (c : Bool) : (s.skipIf c).dumps = s.dumps := by cases c <;> rfl
@[simp] theorem State.skipIf_agenda (c : Bool) : (s.skipIf c).agenda = s.agenda := by cases c <;> rfl
@[simp] theorem State.skipIf_reg (c : Bool) (r : RegNum) : (s.skipIf c).reg r = s.reg r := by cases c <;> rfl
@[simp] theorem State.skipIf_byte (c : Bool) (a : Nat) : (s.skipIf c).byte a = s.byte a := by cases c <;> rfl
@[simp] theorem State.skipIf_pixel (c : Bool) (row col : Nat) : (s.skipIf c).pixel row col = s.pixel row col := by cases c <;> rfl
@[simp] theorem State.skipIf_key (c : Bool) (n : Fin 16) : (s.skipIf c).key n = s.key n := by cases c <;> rfl

/-! ## `setPixel` -/

@[simp] theorem State.setPixel_v (r c : Nat) (b : Bool) : (s.setPixel r c b).v = s.v := by unfold State.setPixel; split <;> rfl
@[simp] theorem State.setPixel_i (r c : Nat) (b : Bool) : (s.setPixel r c b).i = s.i := by unfold State.setPixel; split <;> rfl
@[simp] theorem State.setPixel_pc (r c : Nat) (b : Bool) : (s.setPixel r c b).pc = s.pc := by unfold State.setPixel; split <;> rfl
@[simp] theorem State.setPixel_stack (r c : Nat) (b : Bool) : (s.setPixel r c b).stack = s.stack := by unfold State.setPixel; split <;> rfl
@[simp] theorem State.setPixel_dt (r c : Nat) (b : Bool) : (s.setPixel r c b).dt = s.dt := by unfold State.setPixel; split <;> rfl
@[simp] theorem State.setPixel_st (r c : Nat) (b : Bool) : (s.setPixel r c b).st = s.st := by unfold State.setPixel; split <;> rfl
@[simp] theorem State.setPixel_es (r c : Nat) (b : Bool) : (s.setPixel r c b).es = s.es := by unfold State.setPixel; split <;> rfl
@[simp] theorem State.setPixel_mem (r c : Nat) (b : Bool) : (s.setPixel r c b).mem = s.mem := by unfold State.setPixel; split <;> rfl
@[simp] theorem State.setPixel_keys (r c : Nat) (b : Bool) : (s.setPixel r c b).keys = s.keys := by unfold State.setPixel; split <;> rfl
@[simp] theorem State.setPixel_cip (r c : Nat) (b : Bool) : (s.setPixel r c b).cip = s.cip := by unfold State.setPixel; split <;> rfl
@[simp] theorem State.setPixel_accI (r c : Nat) (b : Bool) : (s.setPixel r c b).accI = s.accI := by unfold State.setPixel; split <;> rfl
@[simp] theorem State.setPixel_accT (r c : Nat) (b : Bool) : (s.setPixel r c b).accT = s.accT := by unfold State.setPixel; split <;> rfl
@[simp] theorem State.setPixel_params (r c : Nat) (b : Bool) : (s.setPixel r c b).params = s.params := by unfold State.setPixel; split <;> rfl
@[simp] theorem State.setPixel_draws (r c : Nat) (b : Bool) : (s.setPixel r c b).draws = s.draws := by unfold State.setPixel; split <;> rfl
@[simp] theorem State.setPixel_dumps (r c : Nat) (b : Bool) : (s.setPixel r c b).dumps = s.dumps := by unfold State.setPixel; split <;> rfl
@[simp] theorem State.setPixel_agenda (r c : Nat) (b : Bool) : (s.setPixel r c b).agenda = s.agenda := by unfold State.setPixel; split <;> rfl
@[simp] theorem State.setPixel_reg (r c : Nat) (b : Bool) (q : RegNum) : (s.setPixel r c b).reg q = s.reg q := by unfold State.setPixel; split <;> rfl
@[simp] theorem State.setPixel_byte (r c : Nat) (b : Bool) (a : Nat) : (s.setPixel r c b).byte a = s.byte a := by unfold State.setPixel; split <;> rfl
@[simp] theorem State.setPixel_key (r c : Nat) (b : Bool) (n : Fin 16) : (s.setPixel r c b).key n = s.key n := by unfold State.setPixel; split <;> rfl

/-! ## `raise` -/

@[simp] theorem State.raise_v (f : FaultKind) : (s.raise f).v = s.v := by unfold State.raise; split <;> rfl
@[simp] theorem State.raise_i (f : FaultKind) : (s.raise f).i = s.i := by unfold State.raise; split <;> rfl
@[simp] theorem State.raise_pc (f : FaultKind) : (s.raise f).pc = s.pc := by unfold State.raise; split <;> rfl
@[simp] theorem State.raise_stack (f : FaultKind) : (s.raise f).stack = s.stack := by unfold State.raise; split <;> rfl
@[simp] theorem State.raise_dt (f : FaultKind) : (s.raise f).dt = s.dt := by unfold State.raise; split <;> rfl
@[simp] theorem State.raise_st (f : FaultKind) : (s.raise f).st = s.st := by unfold State.raise; split <;> rfl
@[simp] theorem State.raise_mem (f : FaultKind) : (s.raise f).mem = s.mem := by unfold State.raise; split <;> rfl
@[simp] theorem State.raise_fb (f : FaultKind) : (s.raise f).fb = s.fb := by unfold State.raise; split <;> rfl
@[simp] theorem State.raise_keys (f : FaultKind) : (s.raise f).keys = s.keys := by unfold State.raise; split <;> rfl
@[simp] theorem State.raise_cip (f : FaultKind) : (s.raise f).cip = s.cip := by unfold State.raise; split <;> rfl
@[simp] theorem State.raise_accI (f : FaultKind) : (s.raise f).accI = s.accI := by unfold State.raise; split <;> rfl
@[simp] theorem State.raise_accT (f : FaultKind) : (s.raise f).accT = s.accT := by unfold State.raise; split <;> rfl
@[simp] theorem State.raise_params (f : FaultKind) : (s.raise f).params = s.params := by unfold State.raise; split <;> rfl
@[simp] theorem State.raise_draws (f : FaultKind) : (s.raise f).draws = s.draws := by unfold State.raise; split <;> rfl
@[simp] theorem State.raise_agenda (f : FaultKind) : (s.raise f).agenda = s.agenda := by unfold State.raise; split <;> rfl
@[simp] theorem State.raise_reg (f : FaultKind) (r : RegNum) : (s.raise f).reg r = s.reg r := by unfold State.raise; split <;> rfl
@[simp] theorem State.raise_byte (f : FaultKind) (a : Nat) : (s.raise f).byte a = s.byte a := by unfold State.raise; split <;> rfl
@[simp] theorem State.raise_pixel (f : FaultKind) (row col : Nat) : (s.raise f).pixel row col = s.pixel row col := by unfold State.raise; split <;> rfl
@[simp] theorem State.raise_key (f : FaultKind) (n : Fin 16) : (s.raise f).key n = s.key n := by unfold State.raise; split <;> rfl

/-! ## Reading back what was written -/

@[simp] theorem State.reg_setReg (r q : RegNum) (b : Byte) : (s.setReg r b).reg q = if q = r then b else s.reg q := by
  simp only [State.reg, State.setReg, Vector.getElem_set]
  by_cases h : q = r
  · simp [h]
  · have : r.val ≠ q.val := fun e => h (Fin.ext e.symm)
    simp [h, this]

@[simp] theorem State.reg_setFlag (q : RegNum) (f : Bool) :
    (s.setFlag f).reg q = if q = vf then flagByte f else s.reg q := by
  simp [State.setFlag]

/-- The flag is written last: VF holds it whatever the destination was (R161). -/
@[simp] theorem State.reg_setResultThenFlag (x q : RegNum) (b : Byte) (f : Bool) :
    (s.setResultThenFlag x b f).reg q = if q = vf then flagByte f else if q = x then b else s.reg q := by
  simp [State.setResultThenFlag]

@[simp] theorem State.key_setKey (k n : Fin 16) (b : Bool) : (s.setKey k b).key n = if n = k then b else s.key n := by
  simp only [State.key, State.setKey, Vector.getElem_set]
  by_cases h : n = k
  · simp [h]
  · have : k.val ≠ n.val := fun e => h (Fin.ext e.symm)
    simp [h, this]

theorem State.pixel_setPixel (r c row col : Nat) (b : Bool) :
    (s.setPixel r c b).pixel row col = if row = r ∧ col = c ∧ r < 32 ∧ c < 64 then b else s.pixel row col := by
  unfold State.setPixel State.pixel
  by_cases hin : r < 32 ∧ c < 64
  · by_cases hrc : row < 32 ∧ col < 64
    · simp only [hin, hrc, dif_pos, and_self, and_true, Vector.getElem_set]
      by_cases hr : r = row
      · subst hr
        by_cases hc : c = col
        · simp [hc]
        · simp [hc, Ne.symm hc]
      · simp [hr, Ne.symm hr]
    · have : ¬ (row = r ∧ col = c) := by rintro ⟨rfl, rfl⟩; exact hrc hin
      simp [hin, hrc]
      tauto
  · simp [hin]

@[simp] theorem State.pixel_clearDisplay (row col : Nat) : s.clearDisplay.pixel row col = false := by
  unfold State.clearDisplay State.pixel
  split <;> simp

theorem State.pixel_outside (row col : Nat) (h : ¬ (row < 32 ∧ col < 64)) : s.pixel row col = false := by
  simp [State.pixel, h]

theorem State.skipIf_pc (c : Bool) : (s.skipIf c).pc = if c then s.pc + 2 else s.pc := by
  cases c <;> rfl

/-! ## Taking a fault -/

/-- A running or blocked engine halts on the fault, and one diagnostic request is signalled (R255, R286). -/
theorem State.raise_not_halted (f : FaultKind) (h : ∀ g, s.es ≠ .halted g) :
    s.raise f = { s with es := .halted f, dumps := s.dumps + 1 } := by
  unfold State.raise
  split
  · exact absurd ‹_› (h _)
  · rfl
  · rfl

theorem State.raise_running (f : FaultKind) (h : s.es = .running) :
    s.raise f = { s with es := .halted f, dumps := s.dumps + 1 } :=
  s.raise_not_halted f (by simp [h])

/-- A second fault changes nothing (R255). -/
theorem State.raise_halted (f g : FaultKind) (h : s.es = .halted g) : s.raise f = s := by
  simp [State.raise, h]

/-! ## `resetNow` -/

@[simp] theorem State.resetNow_params : s.resetNow.params = s.params := rfl
@[simp] theorem State.resetNow_draws : s.resetNow.draws = s.draws := rfl
@[simp] theorem State.resetNow_dumps : s.resetNow.dumps = s.dumps := rfl
@[simp] theorem State.resetNow_agenda : s.resetNow.agenda = s.agenda := rfl
@[simp] theorem State.resetNow_mem : s.resetNow.mem = [] := rfl
@[simp] theorem State.resetNow_es : s.resetNow.es = .running := rfl
@[simp] theorem State.resetNow_pc : s.resetNow.pc = 0 := rfl
@[simp] theorem State.resetNow_cip : s.resetNow.cip = 0 := rfl
@[simp] theorem State.resetNow_stack : s.resetNow.stack = [] := rfl
@[simp] theorem State.resetNow_accI : s.resetNow.accI = 0 := rfl
@[simp] theorem State.resetNow_accT : s.resetNow.accT = 0 := rfl
@[simp] theorem State.resetNow_dt : s.resetNow.dt = 0 := rfl
@[simp] theorem State.resetNow_st : s.resetNow.st = 0 := rfl

end Sys2Proof.Machine
end

