-- ==== Sys2Proof/Laws/Memory.lean ====
section
/-! SUPPORT. The laws of memory: a read after a write, and the canonical form, which every memory operation keeps. -/

namespace Sys2Proof.Machine

open Sys2Proof.Config

variable (p : Params)

/-! ## Lookup -/

theorem Memory.lookup_insert (a b k) (m : Memory) :
    Memory.lookup (Memory.insert a b m) k = if k = a then some b else Memory.lookup m k := by
  induction m with
  | nil => simp [Memory.insert, Memory.lookup, eq_comm]
  | cons c m ih =>
    obtain ⟨j, c⟩ := c
    simp only [Memory.insert]
    split
    · simp only [Memory.lookup]; split_ifs <;> first | rfl | omega
    · split
      · simp only [Memory.lookup]; split_ifs <;> first | rfl | omega
      · simp only [Memory.lookup, ih]; split_ifs <;> first | rfl | omega

theorem Memory.lookup_erase (a k) (m : Memory) :
    Memory.lookup (Memory.erase a m) k = if k = a then none else Memory.lookup m k := by
  induction m with
  | nil => simp [Memory.erase, Memory.lookup]
  | cons c m ih =>
    obtain ⟨j, c⟩ := c
    simp only [Memory.erase]
    split
    · simp only [Memory.lookup, ih]; split_ifs <;> first | rfl | omega
    · simp only [Memory.lookup, ih]; split_ifs <;> first | rfl | omega

/-! ## Read after write -/

/-- A write gives its own address the written byte and leaves every other address alone. -/
theorem Memory.read_write (m : Memory) (a k : Nat) (b : Byte) :
    Memory.read p (Memory.write p m a b) k = if k = a then b else Memory.read p m k := by
  unfold Memory.read Memory.write
  split
  · rename_i hb
    rw [Memory.lookup_erase]
    split_ifs with hk
    · subst hk; exact hb.symm
    · rfl
  · rw [Memory.lookup_insert]; split_ifs <;> rfl

/-- A list of bytes written at `a` stands at `a`, `a + 1`, ...; every other address reads as before. -/
theorem Memory.read_writeList (bs : List Byte) : ∀ (m : Memory) (a k : Nat),
    Memory.read p (Memory.writeList p m a bs) k =
      if a ≤ k ∧ k < a + bs.length then bs.getD (k - a) 0 else Memory.read p m k := by
  induction bs with
  | nil => intro m a k; rw [if_neg (by simp)]; rfl
  | cons b bs ih =>
    intro m a k
    simp only [Memory.writeList, ih, Memory.read_write, List.length_cons]
    by_cases h1 : a + 1 ≤ k ∧ k < a + 1 + bs.length
    · have h2 : a ≤ k ∧ k < a + (bs.length + 1) := by omega
      rw [if_pos h1, if_pos h2]
      obtain ⟨d, rfl⟩ : ∃ d, k = a + 1 + d := ⟨k - (a + 1), by omega⟩
      rw [show a + 1 + d - (a + 1) = d by omega, show a + 1 + d - a = d + 1 by omega, List.getD_cons_succ]
    · rw [if_neg h1]
      by_cases hk : k = a
      · subst hk; simp
      · rw [if_neg hk, if_neg (by omega)]

@[simp] theorem State.byte_setByte (s : State) (k a : Nat) (b : Byte) :
    (s.setByte k b).byte a = if a = k then b else s.byte a :=
  Memory.read_write s.params s.mem k a b

/-- Memory with nothing listed reads as what reset left (R300). -/
@[simp] theorem Memory.read_nil (a : Nat) : Memory.read p [] a = resetByte p a := rfl

/-! ## The canonical form -/

theorem Memory.wfFrom_mono {lo hi : Nat} (h : lo ≤ hi) {m : Memory} (hm : Memory.wfFrom p hi m = true) :
    Memory.wfFrom p lo m = true := by
  cases m with
  | nil => rfl
  | cons c m =>
    obtain ⟨k, b⟩ := c
    simp only [Memory.wfFrom, Bool.and_eq_true, decide_eq_true_eq] at hm ⊢
    exact ⟨⟨⟨by omega, hm.1.1.2⟩, hm.1.2⟩, hm.2⟩

theorem Memory.wfFrom_insert {a : Nat} {b : Byte} (ha : a < 4096) (hb : b ≠ resetByte p a) (m : Memory) :
    ∀ lo, lo ≤ a → Memory.wfFrom p lo m = true → Memory.wfFrom p lo (Memory.insert a b m) = true := by
  induction m with
  | nil => intro lo h _; simp [Memory.insert, Memory.wfFrom, h, ha, hb]
  | cons c m ih =>
    obtain ⟨k, c⟩ := c
    intro lo h hm
    simp only [Memory.wfFrom, Bool.and_eq_true, decide_eq_true_eq] at hm
    obtain ⟨⟨⟨h1, h2⟩, h3⟩, h4⟩ := hm
    simp only [Memory.insert]
    split
    · have : a + 1 ≤ k := by omega
      simp [Memory.wfFrom, h, ha, hb, h2, h3, h4, this]
    · split
      · subst a; simp [Memory.wfFrom, h, ha, hb, h4]
      · simp only [Memory.wfFrom, Bool.and_eq_true, decide_eq_true_eq]
        exact ⟨⟨⟨h1, h2⟩, h3⟩, ih _ (by omega) h4⟩

theorem Memory.wfFrom_erase (a : Nat) (m : Memory) :
    ∀ lo, Memory.wfFrom p lo m = true → Memory.wfFrom p lo (Memory.erase a m) = true := by
  induction m with
  | nil => intro lo h; exact h
  | cons c m ih =>
    obtain ⟨k, c⟩ := c
    intro lo hm
    simp only [Memory.wfFrom, Bool.and_eq_true, decide_eq_true_eq] at hm
    simp only [Memory.erase]
    split
    · exact Memory.wfFrom_mono p (by omega) (ih _ hm.2)
    · simp only [Memory.wfFrom, Bool.and_eq_true, decide_eq_true_eq]
      exact ⟨hm.1, ih _ hm.2⟩

/-- A write below 4096 keeps the canonical form. -/
theorem Memory.wf_write {m : Memory} (h : Memory.wf p m = true) {a : Nat} (ha : a < 4096) (b : Byte) :
    Memory.wf p (Memory.write p m a b) = true := by
  unfold Memory.write
  split
  · exact Memory.wfFrom_erase p a m 0 h
  · exact Memory.wfFrom_insert p ha ‹_› m 0 (Nat.zero_le _) h

/-- Writing a list that ends below 4096 keeps the canonical form. -/
theorem Memory.wf_writeList (bs : List Byte) : ∀ (m : Memory) (a : Nat), Memory.wf p m = true →
    a + bs.length ≤ 4096 → Memory.wf p (Memory.writeList p m a bs) = true := by
  induction bs with
  | nil => intro m a h _; exact h
  | cons b bs ih =>
    intro m a h ha
    simp only [List.length_cons] at ha
    exact ih _ _ (Memory.wf_write p h (by omega) b) (by omega)

/-- The memory after reset is canonical. -/
theorem State.reset_mem_wf : Memory.wf State.reset.params State.reset.mem = true := rfl

/-! ## The bounds checks of Ops (R66) -/

theorem State.memRead_eq_some {s : State} {a : Nat} (h : a < 4096) : s.memRead a = some (s.byte a) :=
  if_pos h

theorem State.memRead_eq_none {s : State} {a : Nat} (h : 4096 ≤ a) : s.memRead a = none :=
  if_neg (Nat.not_lt.mpr h)

theorem State.memWrite_eq_some {s : State} {a : Nat} (h : a < 4096) (b : Byte) :
    s.memWrite a b = some (s.setByte a b) :=
  if_pos h

theorem State.memWrite_eq_none {s : State} {a : Nat} (h : 4096 ≤ a) (b : Byte) : s.memWrite a b = none :=
  if_neg (Nat.not_lt.mpr h)

end Sys2Proof.Machine
end

