-- ==== Sys2Proof/Laws/Ops.lean ====
section
/-! SUPPORT. What each shared operation does, said once: the sequences of byte accesses (R62), the sprite draw (R213)
and the decimal digits (R194). -/

namespace Sys2Proof.Machine

/-! ## Stores -/

/-- A store of bytes that all fit is the plain copy; nothing else changes. -/
theorem State.storeBytes_fits (bs : List Byte) : ∀ (a : Nat) (s : State), a + bs.length ≤ 4096 →
    State.storeBytes bs a s = { s with mem := Memory.writeList s.params s.mem a bs } := by
  induction bs with
  | nil => intro a s _; rfl
  | cons b bs ih =>
    intro a s h
    simp only [List.length_cons] at h
    rw [State.storeBytes, State.memWrite_eq_some (by omega)]
    exact ih (a + 1) (s.setByte a b) (by omega)

/-- A store that runs past 4095 writes the bytes that fit and raises at the first that does not. -/
theorem State.storeBytes_faults (bs : List Byte) : ∀ (a : Nat) (s : State), bs ≠ [] → 4096 < a + bs.length →
    State.storeBytes bs a s =
      State.raise { s with mem := Memory.writeList s.params s.mem a (bs.take (4096 - a)) } .memoryOutOfBounds := by
  induction bs with
  | nil => intro a s h; exact absurd rfl h
  | cons b bs ih =>
    intro a s _ h
    simp only [List.length_cons] at h
    by_cases ha : a < 4096
    · rw [State.storeBytes, State.memWrite_eq_some ha]
      have hne : bs ≠ [] := by rintro rfl; simp at h; omega
      have := ih (a + 1) (s.setByte a b) hne (by omega)
      rw [show 4096 - a = (4096 - (a + 1)) + 1 by omega, List.take_succ_cons]
      exact this
    · rw [State.storeBytes, State.memWrite_eq_none (by omega), show 4096 - a = 0 by omega]
      rfl

/-! ## Loads -/

/-- Registers loaded from `a`, `a + 1`, ... without a bounds check: what `loadRegs` does where it does not fault. -/
def State.copyRegs : List RegNum → Nat → State → State
  | [], _, s => s
  | r :: rs, a, s => State.copyRegs rs (a + 1) (s.setReg r (s.byte a))

/-- A load of registers from bytes that all exist is the plain copy. -/
theorem State.loadRegs_fits (rs : List RegNum) : ∀ (a : Nat) (s : State), a + rs.length ≤ 4096 →
    State.loadRegs rs a s = State.copyRegs rs a s := by
  induction rs with
  | nil => intro a s _; rfl
  | cons r rs ih =>
    intro a s h
    simp only [List.length_cons] at h
    rw [State.loadRegs, State.memRead_eq_some (by omega)]
    exact ih (a + 1) _ (by omega)

/-- A load that runs past 4095 loads the registers that have a byte and raises at the first that has none. -/
theorem State.loadRegs_faults (rs : List RegNum) : ∀ (a : Nat) (s : State), rs ≠ [] → 4096 < a + rs.length →
    State.loadRegs rs a s = (State.copyRegs (rs.take (4096 - a)) a s).raise .memoryOutOfBounds := by
  induction rs with
  | nil => intro a s h; exact absurd rfl h
  | cons r rs ih =>
    intro a s _ h
    simp only [List.length_cons] at h
    by_cases ha : a < 4096
    · rw [State.loadRegs, State.memRead_eq_some ha]
      have hne : rs ≠ [] := by rintro rfl; simp at h; omega
      have := ih (a + 1) (s.setReg r (s.byte a)) hne (by omega)
      rw [show 4096 - a = (4096 - (a + 1)) + 1 by omega, List.take_succ_cons]
      exact this
    · rw [State.loadRegs, State.memRead_eq_none (by omega), show 4096 - a = 0 by omega]
      rfl

/-- A copy of registers writes registers only. -/
theorem State.copyRegs_eq (rs : List RegNum) : ∀ (a : Nat) (s : State),
    State.copyRegs rs a s = { s with v := (State.copyRegs rs a s).v } := by
  induction rs with
  | nil => intro a s; rfl
  | cons r rs ih => intro a s; rw [State.copyRegs, ih]; rfl

/-- A register that is not in the list keeps its value. -/
theorem State.reg_copyRegs_of_notMem (rs : List RegNum) (q : RegNum) : ∀ (a : Nat) (s : State), q ∉ rs →
    (State.copyRegs rs a s).reg q = s.reg q := by
  induction rs with
  | nil => intro a s _; rfl
  | cons r rs ih =>
    intro a s h
    rw [List.mem_cons, not_or] at h
    rw [State.copyRegs, ih _ _ h.2, State.reg_setReg, if_neg h.1]

/-- The register at place `j` of a list without repeats gets the byte at `a + j`. -/
theorem State.reg_copyRegs_getElem (rs : List RegNum) : ∀ (a : Nat) (s : State), rs.Nodup →
    ∀ (j : Nat) (hj : j < rs.length), (State.copyRegs rs a s).reg rs[j] = s.byte (a + j) := by
  induction rs with
  | nil => intro a s _ j hj; exact absurd hj (Nat.not_lt_zero _)
  | cons r rs ih =>
    intro a s hnd j hj
    rw [List.nodup_cons] at hnd
    cases j with
    | zero =>
      rw [List.getElem_cons_zero, State.copyRegs, State.reg_copyRegs_of_notMem _ _ _ _ hnd.1]
      simp
    | succ j =>
      rw [List.getElem_cons_succ, State.copyRegs, ih (a + 1) _ hnd.2 j (by simpa using hj),
        State.setReg_byte, show a + 1 + j = a + (j + 1) by omega]

/-- Copying the first `n` registers: V0..V(n-1) get the bytes at `a`, `a + 1`, ..., the others keep their values. -/
theorem State.reg_copyRegs_take (n a : Nat) (s : State) (q : RegNum) :
    (State.copyRegs ((List.finRange 16).take n) a s).reg q = if q.val < n then s.byte (a + q.val) else s.reg q := by
  have hnd : ((List.finRange 16).take n).Nodup := (List.nodup_finRange 16).sublist (List.take_sublist _ _)
  split
  · rename_i h
    have hlen : q.val < ((List.finRange 16).take n).length := by
      have := q.isLt; simp only [List.length_take, List.length_finRange]; omega
    have := State.reg_copyRegs_getElem _ a s hnd q.val hlen
    simpa using this
  · rename_i h
    apply State.reg_copyRegs_of_notMem
    intro hm
    obtain ⟨j, hj, he⟩ := List.getElem_of_mem hm
    simp only [List.getElem_take, List.getElem_finRange] at he
    simp only [List.length_take, List.length_finRange] at hj
    have : q.val = j := by rw [← he]; rfl
    omega

/-- The registers 0..x are X + 1 in number. -/
theorem length_regsUpTo (x : RegNum) : (regsUpTo x).length = x.val + 1 := by
  have := x.isLt
  simp only [regsUpTo, List.length_take, List.length_finRange]; omega

/-- The byte `LD [I],Vx` stores at offset `j` is V`j`. -/
theorem getD_regsUpTo (s : State) (x r : RegNum) (h : r.val ≤ x.val) :
    ((regsUpTo x).map s.reg).getD r.val 0 = s.reg r := by
  have h' : r.val < ((regsUpTo x).map s.reg).length := by rw [List.length_map, length_regsUpTo]; omega
  rw [List.getD_eq_getElem _ _ h']
  simp [regsUpTo]

/-! ## The sprite draw -/

/-- A drawn pixel: the bit is XORed into its cell, every other cell stays. -/
theorem State.pixel_drawPixel (s : State) (r c row col : Nat) (bit : Bool) :
    (s.drawPixel r c bit).pixel row col =
      (s.pixel row col ^^ (decide (row = r ∧ col = c ∧ r ≤ 31 ∧ c ≤ 63) && bit)) := by
  unfold State.drawPixel
  by_cases hin : c ≤ 63 ∧ r ≤ 31
  · have key : (s.setPixel r c (s.pixel r c ^^ bit)).pixel row col =
        (s.pixel row col ^^ (decide (row = r ∧ col = c ∧ r ≤ 31 ∧ c ≤ 63) && bit)) := by
      rw [State.pixel_setPixel]
      by_cases he : row = r ∧ col = c
      · obtain ⟨rfl, rfl⟩ := he
        have h2 : row < 32 ∧ col < 64 := by omega
        simp [hin, h2]
      · have hd : decide (row = r ∧ col = c ∧ r ≤ 31 ∧ c ≤ 63) = false :=
          decide_eq_false (fun h => he ⟨h.1, h.2.1⟩)
        rw [if_neg (fun h => he ⟨h.1, h.2.1⟩), hd]
        simp
    rw [if_pos hin]
    simp only
    split
    · rw [State.setFlag_pixel, key]
    · exact key
  · have hd : decide (row = r ∧ col = c ∧ r ≤ 31 ∧ c ≤ 63) = false := decide_eq_false (by omega)
    rw [if_neg hin, hd]
    simp

/-- A drawn pixel sets VF when it meets a lit cell, and writes no other register. -/
theorem State.reg_drawPixel (s : State) (r c : Nat) (bit : Bool) (q : RegNum) :
    (s.drawPixel r c bit).reg q = if q = vf ∧ (bit && s.pixel r c) = true then 1 else s.reg q := by
  unfold State.drawPixel
  by_cases hin : c ≤ 63 ∧ r ≤ 31
  · rw [if_pos hin]
    simp only
    split
    · rename_i h
      rw [State.reg_setFlag, State.setPixel_reg]
      by_cases hq : q = vf <;> simp [hq, h, flagByte]
    · rename_i h
      rw [State.setPixel_reg, if_neg (fun h' => h h'.2)]
  · have : s.pixel r c = false := State.pixel_outside s r c (by omega)
    rw [if_neg hin, this]
    simp

/-- A drawn pixel writes the display and registers only. -/
theorem State.drawPixel_eq (s : State) (r c : Nat) (bit : Bool) :
    s.drawPixel r c bit = { s with fb := (s.drawPixel r c bit).fb, v := (s.drawPixel r c bit).v } := by
  unfold State.drawPixel State.setPixel
  split
  · simp only; split <;> split <;> rfl
  · rfl

/-- A drawn row writes the display and registers only. -/
theorem State.drawRow_eq (b : Byte) (r x0 : Nat) (ks : List Nat) : ∀ s : State,
    State.drawRow b r x0 ks s =
      { s with fb := (State.drawRow b r x0 ks s).fb, v := (State.drawRow b r x0 ks s).v } := by
  induction ks with
  | nil => intro s; rfl
  | cons k ks ih => intro s; rw [State.drawRow, ih, State.drawPixel_eq]

/-- The cells of a drawn row, for pixels `k` without repeats. -/
theorem State.pixel_drawRow (b : Byte) (r x0 row col : Nat) (ks : List Nat) : ∀ s : State, ks.Nodup →
    (State.drawRow b r x0 ks s).pixel row col =
      (s.pixel row col ^^ (decide (row = r ∧ r ≤ 31 ∧ col ≤ 63 ∧ x0 ≤ col ∧ col - x0 ∈ ks) && spriteBit b (col - x0)))
    := by
  induction ks with
  | nil => intro s _; simp [State.drawRow]
  | cons k ks ih =>
    intro s hnd
    rw [List.nodup_cons] at hnd
    rw [State.drawRow, ih _ hnd.2, State.pixel_drawPixel]
    by_cases hk : col = x0 + k
    · subst hk
      have h1 : x0 + k - x0 = k := by omega
      simp only [h1, hnd.1, List.mem_cons, true_or, and_false, decide_false, Bool.false_and, Bool.xor_false]
      congr 2
      simp
    · have h2 : (x0 ≤ col ∧ col - x0 ∈ k :: ks) ↔ (x0 ≤ col ∧ col - x0 ∈ ks) := by
        rw [List.mem_cons]
        constructor
        · rintro ⟨h, h3 | h3⟩
          · exact absurd (by omega) hk
          · exact ⟨h, h3⟩
        · rintro ⟨h, h3⟩; exact ⟨h, .inr h3⟩
      have h4 : decide (row = r ∧ r ≤ 31 ∧ col ≤ 63 ∧ x0 ≤ col ∧ col - x0 ∈ k :: ks) =
          decide (row = r ∧ r ≤ 31 ∧ col ≤ 63 ∧ x0 ≤ col ∧ col - x0 ∈ ks) := decide_eq_decide.mpr (by rw [h2])
      have h5 : decide (row = r ∧ col = x0 + k ∧ r ≤ 31 ∧ x0 + k ≤ 63) = false := decide_eq_false (fun h => hk h.2.1)
      rw [h4, h5]
      simp

/-- VF after a drawn row is 1 when some pixel of it met a lit cell; no other register is written. -/
theorem State.reg_drawRow (b : Byte) (r x0 : Nat) (q : RegNum) (ks : List Nat) : ∀ s : State, ks.Nodup →
    (State.drawRow b r x0 ks s).reg q =
      if q = vf ∧ (∃ k ∈ ks, spriteBit b k = true ∧ s.pixel r (x0 + k) = true) then 1 else s.reg q := by
  induction ks with
  | nil => intro s _; simp [State.drawRow]
  | cons k ks ih =>
    intro s hnd
    rw [List.nodup_cons] at hnd
    have hpix : ∀ j ∈ ks, (s.drawPixel r (x0 + k) (spriteBit b k)).pixel r (x0 + j) = s.pixel r (x0 + j) := by
      intro j hj
      have hne : ¬ (r = r ∧ x0 + j = x0 + k ∧ r ≤ 31 ∧ x0 + k ≤ 63) := by
        rintro ⟨-, h, -⟩
        have : j = k := by omega
        exact hnd.1 (this ▸ hj)
      rw [State.pixel_drawPixel, decide_eq_false hne]
      simp
    have hiff : (∃ j ∈ ks, spriteBit b j = true ∧
          (s.drawPixel r (x0 + k) (spriteBit b k)).pixel r (x0 + j) = true) ↔
        (∃ j ∈ ks, spriteBit b j = true ∧ s.pixel r (x0 + j) = true) := by
      constructor
      · rintro ⟨j, hj, h1, h2⟩; exact ⟨j, hj, h1, hpix j hj ▸ h2⟩
      · rintro ⟨j, hj, h1, h2⟩; exact ⟨j, hj, h1, (hpix j hj).symm ▸ h2⟩
    rw [State.drawRow, ih _ hnd.2, State.reg_drawPixel]
    simp only [hiff, List.mem_cons, exists_eq_or_imp, Bool.and_eq_true]
    by_cases hq : q = vf
    · by_cases h1 : ∃ j ∈ ks, spriteBit b j = true ∧ s.pixel r (x0 + j) = true
      · simp [hq, h1]
      · simp [hq, h1]
    · simp [hq]

/-- The eight pixels of a row. -/
theorem mem_rowPixels (k : Nat) : k ∈ rowPixels ↔ k < 8 := by
  simp only [rowPixels, List.mem_cons, List.not_mem_nil, or_false]; omega

theorem nodup_rowPixels : rowPixels.Nodup := by decide

/-- Drawn rows write the display and registers only, until a row has no byte, where the fault is raised: with
`d = min n (4096 - (I + row))` rows drawn, the end state is that of `d` rows, halted when `d < n`. -/
theorem State.drawRows_stop (x0 y0 : Nat) (n : Nat) : ∀ (row : Nat) (s : State),
    State.drawRows x0 y0 n row s =
      if s.i.toNat + row + n ≤ 4096 ∨ n = 0 then State.drawRows x0 y0 n row s
      else (State.drawRows x0 y0 (4096 - (s.i.toNat + row)) row s).raise .memoryOutOfBounds := by
  induction n with
  | zero => intro row s; simp
  | succ n ih =>
    intro row s
    by_cases hfit : s.i.toNat + row + (n + 1) ≤ 4096
    · simp [hfit]
    · rw [if_neg (by omega)]
      by_cases hrow : s.i.toNat + row < 4096
      · have hd : 4096 - (s.i.toNat + row) = (4096 - (s.i.toNat + (row + 1))) + 1 := by omega
        have hr : s.memRead (s.effAddr row) = some (s.byte (s.effAddr row)) := State.memRead_eq_some hrow
        rw [hd, State.drawRows, State.drawRows, hr]
        simp only
        have hi : (State.drawRow (s.byte (s.effAddr row)) (y0 + row) x0 rowPixels s).i = s.i := by
          rw [State.drawRow_eq]
        rw [ih (row + 1), hi, if_neg (by omega)]
      · have hr : s.memRead (s.effAddr row) = none := State.memRead_eq_none (by unfold State.effAddr; omega)
        rw [show 4096 - (s.i.toNat + row) = 0 by omega, State.drawRows, State.drawRows, hr]

/-- What rows that all have a byte do: `n` rows from row index `row` on XOR their bits into the display, VF becomes 1
when one of them met a lit cell, and nothing else changes. -/
theorem State.drawRows_fits (x0 y0 : Nat) (n : Nat) : ∀ (row : Nat) (s : State), s.i.toNat + row + n ≤ 4096 →
    (∀ r c, (State.drawRows x0 y0 n row s).pixel r c =
      (s.pixel r c ^^ (decide (y0 + row ≤ r ∧ r < y0 + row + n ∧ r ≤ 31 ∧ x0 ≤ c ∧ c < x0 + 8 ∧ c ≤ 63) &&
        spriteBit (s.byte (s.i.toNat + (r - y0))) (c - x0)))) ∧
    (∀ q, q ≠ vf → (State.drawRows x0 y0 n row s).reg q = s.reg q) ∧
    ((∃ r c, (decide (y0 + row ≤ r ∧ r < y0 + row + n ∧ r ≤ 31 ∧ x0 ≤ c ∧ c < x0 + 8 ∧ c ≤ 63) &&
        spriteBit (s.byte (s.i.toNat + (r - y0))) (c - x0)) = true ∧ s.pixel r c = true) →
      (State.drawRows x0 y0 n row s).reg vf = 1) ∧
    ((¬ ∃ r c, (decide (y0 + row ≤ r ∧ r < y0 + row + n ∧ r ≤ 31 ∧ x0 ≤ c ∧ c < x0 + 8 ∧ c ≤ 63) &&
        spriteBit (s.byte (s.i.toNat + (r - y0))) (c - x0)) = true ∧ s.pixel r c = true) →
      (State.drawRows x0 y0 n row s).reg vf = s.reg vf) ∧
    State.drawRows x0 y0 n row s =
      { s with fb := (State.drawRows x0 y0 n row s).fb, v := (State.drawRows x0 y0 n row s).v } := by
  induction n with
  | zero =>
    intro row s _
    refine ⟨fun r c => ?_, fun q _ => rfl, ?_, fun _ => rfl, rfl⟩
    · have : decide (y0 + row ≤ r ∧ r < y0 + row + 0 ∧ r ≤ 31 ∧ x0 ≤ c ∧ c < x0 + 8 ∧ c ≤ 63) = false :=
        decide_eq_false (by omega)
      rw [this, State.drawRows]; simp
    · rintro ⟨r, c, h, -⟩
      rw [Bool.and_eq_true, decide_eq_true_eq] at h
      omega
  | succ n ih =>
    intro row s hfit
    have hr : s.memRead (s.effAddr row) = some (s.byte (s.effAddr row)) :=
      State.memRead_eq_some (by unfold State.effAddr; omega)
    have hstep : State.drawRows x0 y0 (n + 1) row s = State.drawRows x0 y0 n (row + 1)
        (State.drawRow (s.byte (s.effAddr row)) (y0 + row) x0 rowPixels s) := by
      rw [State.drawRows, hr]
    generalize hs1 : State.drawRow (s.byte (s.effAddr row)) (y0 + row) x0 rowPixels s = s1 at hstep
    have heq : s1 = { s with fb := s1.fb, v := s1.v } := by rw [← hs1]; exact State.drawRow_eq _ _ _ _ _
    have hi : s1.i = s.i := by rw [heq]
    have hb : ∀ a, s1.byte a = s.byte a := by intro a; rw [heq]; rfl
    have hp : ∀ r c, s1.pixel r c = (s.pixel r c ^^ (decide (r = y0 + row ∧ y0 + row ≤ 31 ∧ c ≤ 63 ∧ x0 ≤ c ∧
        c - x0 < 8) && spriteBit (s.byte (s.effAddr row)) (c - x0))) := by
      intro r c
      rw [← hs1, State.pixel_drawRow _ _ _ _ _ _ _ nodup_rowPixels]
      congr 2
      exact decide_eq_decide.mpr (by rw [mem_rowPixels])
    have hv : ∀ q, s1.reg q = if q = vf ∧ (∃ k ∈ rowPixels, spriteBit (s.byte (s.effAddr row)) k = true ∧
        s.pixel (y0 + row) (x0 + k) = true) then 1 else s.reg q := by
      intro q
      rw [← hs1, State.reg_drawRow _ _ _ _ _ _ nodup_rowPixels]
    obtain ⟨h1, hother, hhit, hmiss, h3⟩ := ih (row + 1) s1 (by rw [hi]; omega)
    -- the later rows meet cells the first row left alone
    have hlater : ∀ r c, y0 + (row + 1) ≤ r → s1.pixel r c = s.pixel r c := by
      intro r c hr
      have : decide (r = y0 + row ∧ y0 + row ≤ 31 ∧ c ≤ 63 ∧ x0 ≤ c ∧ c - x0 < 8) = false :=
        decide_eq_false (by omega)
      rw [hp, this]; simp
    -- a hit among `n + 1` rows is a hit of the first row or of the later ones
    have hsplit : (∃ r c, (decide (y0 + row ≤ r ∧ r < y0 + row + (n + 1) ∧ r ≤ 31 ∧ x0 ≤ c ∧ c < x0 + 8 ∧ c ≤ 63) &&
          spriteBit (s.byte (s.i.toNat + (r - y0))) (c - x0)) = true ∧ s.pixel r c = true) ↔
        (∃ k ∈ rowPixels, spriteBit (s.byte (s.effAddr row)) k = true ∧
          s.pixel (y0 + row) (x0 + k) = true) ∨
        (∃ r c, (decide (y0 + (row + 1) ≤ r ∧ r < y0 + (row + 1) + n ∧ r ≤ 31 ∧ x0 ≤ c ∧ c < x0 + 8 ∧ c ≤ 63) &&
          spriteBit (s1.byte (s1.i.toNat + (r - y0))) (c - x0)) = true ∧ s1.pixel r c = true) := by
      simp only [hb, hi]
      constructor
      · rintro ⟨r, c, h, hpix⟩
        rw [Bool.and_eq_true, decide_eq_true_eq] at h
        by_cases hrow : r = y0 + row
        · subst hrow
          left
          refine ⟨c - x0, (mem_rowPixels _).mpr (by omega), ?_, ?_⟩
          · have := h.2
            rwa [show y0 + row - y0 = row by omega] at this
          · rwa [show x0 + (c - x0) = c by omega]
        · right
          refine ⟨r, c, ?_, by rw [hlater r c (by omega)]; exact hpix⟩
          rw [Bool.and_eq_true, decide_eq_true_eq]
          exact ⟨by omega, h.2⟩
      · rintro (⟨k, hk, hbit, hpix⟩ | ⟨r, c, h, hpix⟩)
        · rw [mem_rowPixels] at hk
          have hin : y0 + row < 32 ∧ x0 + k < 64 := by
            by_contra hout
            rw [State.pixel_outside s _ _ hout] at hpix
            exact absurd hpix (by decide)
          refine ⟨y0 + row, x0 + k, ?_, hpix⟩
          rw [Bool.and_eq_true, decide_eq_true_eq, show y0 + row - y0 = row by omega, show x0 + k - x0 = k by omega]
          exact ⟨by omega, hbit⟩
        · rw [Bool.and_eq_true, decide_eq_true_eq] at h
          refine ⟨r, c, ?_, by rw [← hlater r c h.1.1]; exact hpix⟩
          rw [Bool.and_eq_true, decide_eq_true_eq]
          exact ⟨by omega, h.2⟩
    rw [hstep]
    refine ⟨fun r c => ?_, fun q hq => ?_, fun h => ?_, fun h => ?_, ?_⟩
    · rw [h1 r c, hp r c, hb, hi]
      by_cases hrow : r = y0 + row
      · subst hrow
        have e1 : decide (y0 + (row + 1) ≤ y0 + row ∧ y0 + row < y0 + (row + 1) + n ∧ y0 + row ≤ 31 ∧ x0 ≤ c ∧
            c < x0 + 8 ∧ c ≤ 63) = false := decide_eq_false (by omega)
        have e2 : decide (y0 + row = y0 + row ∧ y0 + row ≤ 31 ∧ c ≤ 63 ∧ x0 ≤ c ∧ c - x0 < 8) =
            decide (y0 + row ≤ y0 + row ∧ y0 + row < y0 + row + (n + 1) ∧ y0 + row ≤ 31 ∧ x0 ≤ c ∧ c < x0 + 8 ∧ c ≤ 63) :=
          decide_eq_decide.mpr (by omega)
        rw [e1, e2, show y0 + row - y0 = row by omega]
        simp [State.effAddr]
      · have e1 : decide (r = y0 + row ∧ y0 + row ≤ 31 ∧ c ≤ 63 ∧ x0 ≤ c ∧ c - x0 < 8) = false :=
          decide_eq_false (by omega)
        have e2 : decide (y0 + (row + 1) ≤ r ∧ r < y0 + (row + 1) + n ∧ r ≤ 31 ∧ x0 ≤ c ∧ c < x0 + 8 ∧ c ≤ 63) =
            decide (y0 + row ≤ r ∧ r < y0 + row + (n + 1) ∧ r ≤ 31 ∧ x0 ≤ c ∧ c < x0 + 8 ∧ c ≤ 63) :=
          decide_eq_decide.mpr (by omega)
        rw [e1, e2]
        simp
    · rw [hother q hq, hv q, if_neg (fun h => hq h.1)]
    · by_cases hrest : ∃ r c, (decide (y0 + (row + 1) ≤ r ∧ r < y0 + (row + 1) + n ∧ r ≤ 31 ∧ x0 ≤ c ∧ c < x0 + 8 ∧
          c ≤ 63) && spriteBit (s1.byte (s1.i.toNat + (r - y0))) (c - x0)) = true ∧ s1.pixel r c = true
      · exact hhit hrest
      · rw [hmiss hrest, hv vf, if_pos ⟨rfl, (hsplit.mp h).resolve_right hrest⟩]
    · rw [hsplit, not_or] at h
      rw [hmiss h.2, hv vf, if_neg (fun h' => h.1 h'.2)]
    · rw [h3, heq]

end Sys2Proof.Machine
end

