-- ==== Sys2Proof/Laws/PerInstr.lean ====
section
/-! SUPPORT. The family `OpcodeNibble` (30_encoding.md R92, R95): the word the encoder writes has the major opcode of its
row, so the dispatch of R95 enters the row's own group. One lemma a constructor. -/

namespace Sys2Proof.Laws.OpcodeNibble

/-- The top nibble of the instruction's word is the top nibble of its row's match word. -/
def Statement (i : Instr) : Prop := fieldOpcode (encode i) = fieldOpcode i.matchWord

/-- A word made of a match word and fields below its top nibble. -/
theorem fieldOpcode_ofNat (m k : Nat) (hm : m % 4096 + k < 4096) (h : m < 65536) :
    fieldOpcode (BitVec.ofNat 16 (m + k)) = fieldOpcode (BitVec.ofNat 16 m) := by
  apply Fin.ext
  simp only [fieldOpcode, BitVec.toNat_ofNat]
  omega

theorem cls : Statement .cls := by
  rfl

theorem ret : Statement .ret := by
  rfl

theorem jp (nnn : Addr12) : Statement (.jp nnn) := by
  have := nnn.isLt
  simp only [Statement, encode, encodeNNN, Instr.matchWord]
  exact fieldOpcode_ofNat _ _ (by omega) (by omega)

theorem call (nnn : Addr12) : Statement (.call nnn) := by
  have := nnn.isLt
  simp only [Statement, encode, encodeNNN, Instr.matchWord]
  exact fieldOpcode_ofNat _ _ (by omega) (by omega)

theorem seImm (x : RegNum) (nn : Byte) : Statement (.seImm x nn) := by
  have := x.isLt
  have := nn.isLt
  simp only [Statement, encode, encodeXNN, Instr.matchWord, Nat.add_assoc]
  exact fieldOpcode_ofNat _ _ (by omega) (by omega)

theorem sneImm (x : RegNum) (nn : Byte) : Statement (.sneImm x nn) := by
  have := x.isLt
  have := nn.isLt
  simp only [Statement, encode, encodeXNN, Instr.matchWord, Nat.add_assoc]
  exact fieldOpcode_ofNat _ _ (by omega) (by omega)

theorem seReg (x y : RegNum) : Statement (.seReg x y) := by
  have := x.isLt
  have := y.isLt
  simp only [Statement, encode, encodeXYN, Instr.matchWord, Nat.add_assoc]
  exact fieldOpcode_ofNat _ _ (by omega) (by omega)

theorem ldImm (x : RegNum) (nn : Byte) : Statement (.ldImm x nn) := by
  have := x.isLt
  have := nn.isLt
  simp only [Statement, encode, encodeXNN, Instr.matchWord, Nat.add_assoc]
  exact fieldOpcode_ofNat _ _ (by omega) (by omega)

theorem addImm (x : RegNum) (nn : Byte) : Statement (.addImm x nn) := by
  have := x.isLt
  have := nn.isLt
  simp only [Statement, encode, encodeXNN, Instr.matchWord, Nat.add_assoc]
  exact fieldOpcode_ofNat _ _ (by omega) (by omega)

theorem ldReg (x y : RegNum) : Statement (.ldReg x y) := by
  have := x.isLt
  have := y.isLt
  simp only [Statement, encode, encodeXYN, Instr.matchWord, Nat.add_assoc]
  exact fieldOpcode_ofNat _ _ (by omega) (by omega)

theorem orReg (x y : RegNum) : Statement (.orReg x y) := by
  have := x.isLt
  have := y.isLt
  simp only [Statement, encode, encodeXYN, Instr.matchWord, Nat.add_assoc]
  exact fieldOpcode_ofNat _ _ (by omega) (by omega)

theorem andReg (x y : RegNum) : Statement (.andReg x y) := by
  have := x.isLt
  have := y.isLt
  simp only [Statement, encode, encodeXYN, Instr.matchWord, Nat.add_assoc]
  exact fieldOpcode_ofNat _ _ (by omega) (by omega)

theorem xorReg (x y : RegNum) : Statement (.xorReg x y) := by
  have := x.isLt
  have := y.isLt
  simp only [Statement, encode, encodeXYN, Instr.matchWord, Nat.add_assoc]
  exact fieldOpcode_ofNat _ _ (by omega) (by omega)

theorem addReg (x y : RegNum) : Statement (.addReg x y) := by
  have := x.isLt
  have := y.isLt
  simp only [Statement, encode, encodeXYN, Instr.matchWord, Nat.add_assoc]
  exact fieldOpcode_ofNat _ _ (by omega) (by omega)

theorem sub (x y : RegNum) : Statement (.sub x y) := by
  have := x.isLt
  have := y.isLt
  simp only [Statement, encode, encodeXYN, Instr.matchWord, Nat.add_assoc]
  exact fieldOpcode_ofNat _ _ (by omega) (by omega)

theorem shr (x y : RegNum) : Statement (.shr x y) := by
  have := x.isLt
  have := y.isLt
  simp only [Statement, encode, encodeXYN, Instr.matchWord, Nat.add_assoc]
  exact fieldOpcode_ofNat _ _ (by omega) (by omega)

theorem subn (x y : RegNum) : Statement (.subn x y) := by
  have := x.isLt
  have := y.isLt
  simp only [Statement, encode, encodeXYN, Instr.matchWord, Nat.add_assoc]
  exact fieldOpcode_ofNat _ _ (by omega) (by omega)

theorem shl (x y : RegNum) : Statement (.shl x y) := by
  have := x.isLt
  have := y.isLt
  simp only [Statement, encode, encodeXYN, Instr.matchWord, Nat.add_assoc]
  exact fieldOpcode_ofNat _ _ (by omega) (by omega)

theorem sneReg (x y : RegNum) : Statement (.sneReg x y) := by
  have := x.isLt
  have := y.isLt
  simp only [Statement, encode, encodeXYN, Instr.matchWord, Nat.add_assoc]
  exact fieldOpcode_ofNat _ _ (by omega) (by omega)

theorem ldI (nnn : Addr12) : Statement (.ldI nnn) := by
  have := nnn.isLt
  simp only [Statement, encode, encodeNNN, Instr.matchWord]
  exact fieldOpcode_ofNat _ _ (by omega) (by omega)

theorem jpOff (x : RegNum) (nnn : Addr12) : Statement (.jpOff x nnn) := by
  have := nnn.isLt
  simp only [Statement, encode, encodeNNN, Instr.matchWord]
  exact fieldOpcode_ofNat _ _ (by omega) (by omega)

theorem rnd (x : RegNum) (nn : Byte) : Statement (.rnd x nn) := by
  have := x.isLt
  have := nn.isLt
  simp only [Statement, encode, encodeXNN, Instr.matchWord, Nat.add_assoc]
  exact fieldOpcode_ofNat _ _ (by omega) (by omega)

theorem drw (x y : RegNum) (n : Fin 16) : Statement (.drw x y n) := by
  have := x.isLt
  have := y.isLt
  have := n.isLt
  simp only [Statement, encode, encodeXYN, Instr.matchWord, Nat.add_assoc]
  exact fieldOpcode_ofNat _ _ (by omega) (by omega)

theorem skp (x : RegNum) : Statement (.skp x) := by
  have := x.isLt
  simp only [Statement, encode, encodeX, Instr.matchWord]
  exact fieldOpcode_ofNat _ _ (by omega) (by omega)

theorem sknp (x : RegNum) : Statement (.sknp x) := by
  have := x.isLt
  simp only [Statement, encode, encodeX, Instr.matchWord]
  exact fieldOpcode_ofNat _ _ (by omega) (by omega)

theorem ldVxDt (x : RegNum) : Statement (.ldVxDt x) := by
  have := x.isLt
  simp only [Statement, encode, encodeX, Instr.matchWord]
  exact fieldOpcode_ofNat _ _ (by omega) (by omega)

theorem ldVxK (x : RegNum) : Statement (.ldVxK x) := by
  have := x.isLt
  simp only [Statement, encode, encodeX, Instr.matchWord]
  exact fieldOpcode_ofNat _ _ (by omega) (by omega)

theorem ldDtVx (x : RegNum) : Statement (.ldDtVx x) := by
  have := x.isLt
  simp only [Statement, encode, encodeX, Instr.matchWord]
  exact fieldOpcode_ofNat _ _ (by omega) (by omega)

theorem ldStVx (x : RegNum) : Statement (.ldStVx x) := by
  have := x.isLt
  simp only [Statement, encode, encodeX, Instr.matchWord]
  exact fieldOpcode_ofNat _ _ (by omega) (by omega)

theorem addI (x : RegNum) : Statement (.addI x) := by
  have := x.isLt
  simp only [Statement, encode, encodeX, Instr.matchWord]
  exact fieldOpcode_ofNat _ _ (by omega) (by omega)

theorem ldF (x : RegNum) : Statement (.ldF x) := by
  have := x.isLt
  simp only [Statement, encode, encodeX, Instr.matchWord]
  exact fieldOpcode_ofNat _ _ (by omega) (by omega)

theorem ldB (x : RegNum) : Statement (.ldB x) := by
  have := x.isLt
  simp only [Statement, encode, encodeX, Instr.matchWord]
  exact fieldOpcode_ofNat _ _ (by omega) (by omega)

theorem ldMemVx (x : RegNum) : Statement (.ldMemVx x) := by
  have := x.isLt
  simp only [Statement, encode, encodeX, Instr.matchWord]
  exact fieldOpcode_ofNat _ _ (by omega) (by omega)

theorem ldVxMem (x : RegNum) : Statement (.ldVxMem x) := by
  have := x.isLt
  simp only [Statement, encode, encodeX, Instr.matchWord]
  exact fieldOpcode_ofNat _ _ (by omega) (by omega)

end Sys2Proof.Laws.OpcodeNibble
end

