-- ==== Sys2Proof/Laws/Step.lean ====
section
/-! SUPPORT. What a step can do, said once: the outcome of each event, the outcome of an engine step by what its fetch
reads, the inversion of a step, and what no instruction writes. -/

namespace Sys2Proof.Machine

/-! ## Taking a fault -/

/-- After a raise the engine has halted, with the first fault. -/
theorem State.raise_es (s : State) (f : FaultKind) : ∃ g, (s.raise f).es = .halted g := by
  unfold State.raise
  split
  · exact ⟨_, ‹_›⟩
  · exact ⟨_, rfl⟩
  · exact ⟨_, rfl⟩

/-! ## Instructions -/

/-- Every instruction answers a next state. -/
theorem exec_next (i : Instr) (s : State) : ∃ t, exec i s = .next t := by
  cases i
  case ret => simp only [exec, execRet]; split <;> exact ⟨_, rfl⟩
  case skp x => simp only [exec, execSkp]; split <;> exact ⟨_, rfl⟩
  case sknp x => simp only [exec, execSknp]; split <;> exact ⟨_, rfl⟩
  all_goals exact ⟨_, rfl⟩

/-! ## The engine step -/

theorem State.fetchWord_eq_some {s : State} (h : s.pc.toNat + 1 < 4096) :
    s.fetchWord = some (wordOfBytes (s.byte s.pc.toNat) (s.byte (s.pc.toNat + 1))) :=
  if_pos h

theorem State.fetchWord_eq_none {s : State} (h : 4095 ≤ s.pc.toNat) : s.fetchWord = none :=
  if_neg (by omega)

theorem runInstruction_of_none {s : State} (h : s.fetchWord = none) : runInstruction s = .next s.fetchFault := by
  unfold runInstruction; rw [h]

theorem runInstruction_of_error {s : State} {w : Word} {e : DecodeError} (h : s.fetchWord = some w)
    (hd : decodeWord w = .error e) : runInstruction s = .next (s.fetched.raise .invalidInstruction) := by
  unfold runInstruction; simp only [h, hd]

theorem runInstruction_of_ok {s : State} {w : Word} {i : Instr} (h : s.fetchWord = some w)
    (hd : decodeWord w = .ok i) : runInstruction s = exec i s.fetched := by
  unfold runInstruction; simp only [h, hd]

theorem engineStep_of_running {s : State} (h : s.es = .running) : engineStep s = runInstruction s := by
  unfold engineStep; rw [h]

theorem engineStep_of_not_running {s : State} (h : s.es ≠ .running) : engineStep s = .next s := by
  unfold engineStep
  split
  · exact absurd ‹_› h
  · rfl
  · rfl

/-! ## One step -/

/-- A step performs the next event. -/
theorem step_of_nextEvent {s : State} {e : Event} (h : s.nextEvent = e) : step s = execEvent e s.begin := by
  subst h; rfl

/-- A step performs the first event of the agenda, which has then left it. -/
theorem step_of_agenda {s : State} {e : Event} {rest : List Event} (h : s.agenda = e :: rest) :
    step s = execEvent e { s with agenda := rest } := by
  unfold step performNext State.nextEvent State.begin; simp only [h]; rfl

/-- With nothing on the agenda a step is an engine step. -/
theorem step_of_agenda_nil {s : State} (h : s.agenda = []) : step s = engineStep s := by
  have hs : s.begin = s := by unfold State.begin; rw [h]; cases s; simp_all
  unfold step performNext State.nextEvent; rw [h, hs]; rfl

/-- The instruction `currentInstr` names is the one the step executes. -/
theorem step_of_currentInstr {s : State} {i : Instr} (h : s.currentInstr = some i) :
    s.nextEvent = .engineStep ∧ s.es = .running ∧ s.pc.toNat + 1 < 4096 ∧ step s = exec i s.begin.fetched := by
  unfold State.currentInstr at h
  split at h
  · rename_i w he hr hw
    have hd : decodeWord w = .ok i := by
      cases hd : decodeWord w with
      | error e => rw [hd] at h; cases h
      | ok j => rw [hd] at h; cases h; rfl
    refine ⟨he, hr, ?_, ?_⟩
    · by_contra hlt
      rw [State.fetchWord_eq_none (by omega)] at hw
      cases hw
    · rw [step_of_nextEvent he]
      exact (engineStep_of_running (s := s.begin) hr).trans (runInstruction_of_ok (s := s.begin) hw hd)
  · cases h

/-- What a step that answers a next state has done. -/
theorem step_cases {s t : State} (h : step s = .next t) :
    (∃ i, s.currentInstr = some i ∧ s.nextEvent = .engineStep ∧ s.es = .running ∧ s.pc.toNat + 1 < 4096 ∧
      exec i s.begin.fetched = .next t) ∨
    (s.nextEvent = .engineStep ∧ s.es = .running ∧ 4095 ≤ s.pc.toNat ∧ t = s.begin.fetchFault) ∨
    (s.nextEvent = .engineStep ∧ s.es = .running ∧ s.pc.toNat + 1 < 4096 ∧
      t = s.begin.fetched.raise .invalidInstruction) ∨
    (s.nextEvent = .engineStep ∧ s.es ≠ .running ∧ t = s.begin) ∨
    (s.nextEvent = .timerStep ∧ t = s.begin.timerStep) ∨
    (s.nextEvent = .reset ∧ t = s.begin.resetNow) ∨
    (∃ bytes address, s.nextEvent = .loadProgram bytes address ∧ address.toNat + bytes.length ≤ 4096 ∧
      t = { s.begin with mem := Memory.writeList s.params s.mem address.toNat bytes, pc := address, cip := address }) ∨
    (∃ elapsed order, s.nextEvent = .tick elapsed order ∧ 0 ≤ elapsed ∧ execTick elapsed order s.begin = .next t) ∨
    (∃ k, s.nextEvent = .pressKey k ∧ t = s.begin.pressKey k) ∨
    (∃ k, s.nextEvent = .releaseKey k ∧ t = s.begin.releaseKey k) := by
  rw [step_of_nextEvent rfl] at h
  cases he : s.nextEvent with
  | engineStep =>
    rw [he] at h
    by_cases hr : s.es = .running
    · replace h : engineStep s.begin = .next t := h
      rw [engineStep_of_running (s := s.begin) hr] at h
      by_cases hpc : s.pc.toNat + 1 < 4096
      · have hw := State.fetchWord_eq_some hpc
        cases hd : decodeWord (wordOfBytes (s.byte s.pc.toNat) (s.byte (s.pc.toNat + 1))) with
        | error e =>
          rw [runInstruction_of_error (s := s.begin) hw hd] at h
          cases h; exact .inr (.inr (.inl ⟨rfl, hr, hpc, rfl⟩))
        | ok i =>
          rw [runInstruction_of_ok (s := s.begin) hw hd] at h
          refine .inl ⟨i, ?_, rfl, hr, hpc, h⟩
          unfold State.currentInstr; simp [he, hr, hw, hd, Except.toOption]
      · rw [runInstruction_of_none (s := s.begin) (State.fetchWord_eq_none (by show 4095 ≤ s.pc.toNat; omega))] at h
        cases h; exact .inr (.inl ⟨rfl, hr, by omega, rfl⟩)
    · replace h : engineStep s.begin = .next t := h
      rw [engineStep_of_not_running (s := s.begin) hr] at h
      cases h; exact .inr (.inr (.inr (.inl ⟨rfl, hr, rfl⟩)))
  | timerStep => rw [he] at h; cases h; simp
  | reset => rw [he] at h; cases h; simp
  | loadProgram bytes address =>
    rw [he] at h
    simp only [execEvent, execLoadProgram] at h
    split at h
    · cases h; simp_all [State.begin]
    · cases h
  | tick elapsed order =>
    rw [he] at h
    simp only [execEvent] at h
    have : 0 ≤ elapsed := by
      by_contra hneg
      rw [execTick, if_pos (lt_of_not_ge hneg)] at h; cases h
    simp_all
  | pressKey k => rw [he] at h; cases h; simp
  | releaseKey k => rw [he] at h; cases h; simp

/-! ## The host's key events -/

/-- A number in 0..15 names its key. -/
@[simp] theorem keyNumber_natCast (k : Fin 16) : keyNumber (k.val : Int) = some k := by
  unfold keyNumber; rw [dif_pos (by omega)]; simp

/-- No other number names one. -/
theorem keyNumber_eq_none {k : Int} (h : k < 0 ∨ 15 < k) : keyNumber k = none := by
  unfold keyNumber; rw [dif_neg (by omega)]

/-- A byte in 0..15 names the key it counts. -/
theorem keyOperand_eq_some {b : Byte} {k : Fin 16} (h : b.toNat = k.val) : keyOperand b = some k := by
  unfold keyOperand; rw [dif_pos (by omega)]; simp [h]

/-- A byte above 15 names none. -/
theorem keyOperand_eq_none {b : Byte} (h : 15 < b.toNat) : keyOperand b = none := by
  unfold keyOperand; rw [dif_neg (by omega)]

/-- A press while the engine waits for a key. -/
theorem State.pressKey_of_blocked {s : State} {r : RegNum} (h : s.es = .blockedOnKey r) (k : Fin 16) :
    s.pressKey (k.val : Int) = ({ s with es := .running }.setKey k true).setReg r (BitVec.ofNat 8 k.val) := by
  unfold State.pressKey; simp [h]

/-- A press while it does not. -/
theorem State.pressKey_of_not_blocked {s : State} (h : ∀ r, s.es ≠ .blockedOnKey r) (k : Fin 16) :
    s.pressKey (k.val : Int) = s.setKey k true := by
  unfold State.pressKey
  rw [keyNumber_natCast]
  cases he : s.es with
  | running => rfl
  | blockedOnKey r => exact absurd he (h r)
  | halted f => rfl

/-- The release of a key. -/
theorem State.releaseKey_natCast (s : State) (k : Fin 16) : s.releaseKey (k.val : Int) = s.setKey k false := by
  unfold State.releaseKey; simp

/-! ## What no instruction writes -/

/-- A raise writes `es` and the count of diagnostic requests. -/
theorem State.raise_keeps (s : State) (f : FaultKind) :
    (s.raise f) = { s with es := (s.raise f).es, dumps := (s.raise f).dumps } := by
  unfold State.raise; split <;> rfl

/-- A store writes memory, and raises or not. -/
theorem State.storeBytes_keeps (bs : List Byte) : ∀ (a : Nat) (s : State),
    (State.storeBytes bs a s) = { s with
      mem := (State.storeBytes bs a s).mem, es := (State.storeBytes bs a s).es
      dumps := (State.storeBytes bs a s).dumps } := by
  induction bs with
  | nil => intro a s; rfl
  | cons b bs ih =>
    intro a s
    by_cases h : a < 4096
    · rw [State.storeBytes, State.memWrite_eq_some h]; exact ih _ _
    · rw [State.storeBytes, State.memWrite_eq_none (Nat.not_lt.mp h)]
      simp only; unfold State.raise; split <;> rfl

/-- A load writes registers, and raises or not. -/
theorem State.loadRegs_keeps (rs : List RegNum) : ∀ (a : Nat) (s : State),
    (State.loadRegs rs a s) = { s with
      v := (State.loadRegs rs a s).v, es := (State.loadRegs rs a s).es, dumps := (State.loadRegs rs a s).dumps } := by
  induction rs with
  | nil => intro a s; rfl
  | cons r rs ih =>
    intro a s
    by_cases h : a < 4096
    · rw [State.loadRegs, State.memRead_eq_some h]; exact ih _ _
    · rw [State.loadRegs, State.memRead_eq_none (Nat.not_lt.mp h)]
      simp only; unfold State.raise; split <;> rfl

/-- A draw writes the display and registers, and raises or not. -/
theorem State.drawRows_keeps (x0 y0 : Nat) (n : Nat) : ∀ (row : Nat) (s : State),
    (State.drawRows x0 y0 n row s) = { s with
      fb := (State.drawRows x0 y0 n row s).fb, v := (State.drawRows x0 y0 n row s).v
      es := (State.drawRows x0 y0 n row s).es, dumps := (State.drawRows x0 y0 n row s).dumps } := by
  induction n with
  | zero => intro row s; rfl
  | succ n ih =>
    intro row s
    rw [State.drawRows]
    cases s.memRead (s.effAddr row) with
    | none => simp only; unfold State.raise; split <;> rfl
    | some b => simp only; rw [ih, State.drawRow_eq]

/-- A skip writes `pc`. -/
theorem State.skipIf_keeps (s : State) (c : Bool) : s.skipIf c = { s with pc := (s.skipIf c).pc } := by
  unfold State.skipIf; split <;> rfl

/-- No instruction writes the keys, `cip`, the accumulators, the parameters or the agenda. -/
theorem exec_keeps {i : Instr} {s t : State} (h : exec i s = .next t) :
    t.keys = s.keys ∧ t.cip = s.cip ∧ t.accI = s.accI ∧ t.accT = s.accT ∧ t.params = s.params ∧
      t.agenda = s.agenda := by
  cases i
  case ret =>
    simp only [exec, execRet] at h
    split at h
    · cases h; rw [State.raise_keeps]; simp
    · cases h; simp
  case skp x =>
    simp only [exec, execSkp] at h
    split at h
    · cases h; rw [State.raise_keeps]; simp
    · cases h; rw [State.skipIf_keeps]; simp
  case sknp x =>
    simp only [exec, execSknp] at h
    split at h
    · cases h; rw [State.raise_keeps]; simp
    · cases h; rw [State.skipIf_keeps]; simp
  case seImm x nn => cases h; rw [State.skipIf_keeps]; simp
  case sneImm x nn => cases h; rw [State.skipIf_keeps]; simp
  case seReg x y => cases h; rw [State.skipIf_keeps]; simp
  case sneReg x y => cases h; rw [State.skipIf_keeps]; simp
  case ldB x => cases h; rw [State.storeBytes_keeps]; simp
  case ldMemVx x => cases h; rw [State.storeBytes_keeps]; simp
  case ldVxMem x => cases h; rw [State.loadRegs_keeps]; simp
  case drw x y n => cases h; rw [State.drawRows_keeps]; simp
  all_goals cases h; exact ⟨rfl, rfl, rfl, rfl, rfl, rfl⟩

/-! ## A tick -/

/-- A merge holds engine and timer steps only, as many of each as it was given. -/
theorem mergeSteps_spec (order : List Bool) (ni nt : Nat) :
    (∀ e ∈ mergeSteps order ni nt, e = .engineStep ∨ e = .timerStep) ∧
    (mergeSteps order ni nt).count .engineStep = ni ∧ (mergeSteps order ni nt).count .timerStep = nt := by
  induction order generalizing ni nt with
  | nil =>
    refine ⟨fun e he => ?_, ?_, ?_⟩
    · simp only [mergeSteps, List.mem_append, List.mem_replicate] at he; tauto
    · simp [mergeSteps, List.count_replicate]
    · simp [mergeSteps, List.count_replicate]
  | cons b order ih =>
    cases b
    · cases nt with
      | zero => exact ih ni 0
      | succ nt => obtain ⟨h1, h2, h3⟩ := ih ni nt; simp [mergeSteps, h2, h3]; exact h1
    · cases ni with
      | zero => exact ih 0 nt
      | succ ni => obtain ⟨h1, h2, h3⟩ := ih ni nt; simp [mergeSteps, h2, h3]; exact h1

/-- The merges of `ni` engine steps and `nt` timer steps are the lists of such steps with these counts. -/
theorem exists_mergeSteps_iff {ni nt : Nat} {released : List Event} :
    (∃ order, mergeSteps order ni nt = released) ↔
      (∀ e ∈ released, e = .engineStep ∨ e = .timerStep) ∧
        released.count .engineStep = ni ∧ released.count .timerStep = nt := by
  constructor
  · rintro ⟨order, rfl⟩; exact mergeSteps_spec order ni nt
  · rintro ⟨h, rfl, rfl⟩
    induction released with
    | nil => exact ⟨[], rfl⟩
    | cons e released ih =>
      obtain ⟨order, ho⟩ := ih fun e he => h e (List.mem_cons_of_mem _ he)
      rcases h e List.mem_cons_self with rfl | rfl
      · exact ⟨true :: order, by simp [mergeSteps, ho]⟩
      · exact ⟨false :: order, by simp [mergeSteps, ho]⟩

/-- `periods` is the number of whole periods of `1/rate` in the accumulator. -/
theorem periods_eq_iff {rate acc : Rat} (hr : 0 < rate) (ha : 0 ≤ acc) (n : Nat) :
    periods rate acc = n ↔ n / rate ≤ acc ∧ acc < (n + 1) / rate := by
  have hf : 0 ≤ (acc * rate).floor := Rat.le_floor_iff.mpr (by simpa using mul_nonneg ha hr.le)
  rw [div_le_iff₀ hr, lt_div_iff₀ hr, periods]
  have hn : (acc * rate).floor.toNat = n ↔ ((n : Int) ≤ (acc * rate).floor ∧ (acc * rate).floor < (n : Int) + 1) := by
    omega
  rw [hn, Rat.le_floor_iff, Rat.floor_lt_iff]
  push_cast
  rfl

/-! ## Placing a word -/

/-- A step from `withFetchWord` executes exactly the word placed, where `pc` leaves room for one. -/
theorem step_withFetchWord (s : State) (w : Word) (i : Instr) (h : decodeWord w = .ok i) :
    step (s.withFetchWord 16 w.toNat) = exec i (s.withFetchWord 16 w.toNat).fetched := by
  have hw : BitVec.ofNat 16 (w.toNat % 2 ^ 16) = w := by
    rw [Nat.mod_eq_of_lt w.isLt]; simp
  have hlt := w.isLt
  have hbytes : wordOfBytes (highByte w) (lowByte w) = w := by
    apply BitVec.eq_of_toNat_eq
    simp only [wordOfBytes, highByte, lowByte, BitVec.toNat_ofNat]
    omega
  rw [step_of_agenda_nil rfl, engineStep_of_running rfl]
  refine runInstruction_of_ok (w := w) ?_ h
  have hpc : (s.withFetchWord 16 w.toNat).pc.toNat + 1 < 4096 := by
    simp only [State.withFetchWord]; split
    · omega
    · decide
  rw [State.fetchWord_eq_some hpc]
  simp only [State.byte, State.withFetchWord, hw, Memory.read_writeList]
  simp [hbytes]

end Sys2Proof.Machine
end

