-- ==== Sys2Proof/Tests/Slice0.lean ====
section
/-! SUPPORT. Tests and witnesses. Every expected value is the spec's own: the words are written out from the patterns of
30_encoding.md R96, the results are the vectors of 95_test_vectors.md (their ids stand in the comments). The theorems
`witness_…` show states and operands that meet the hypotheses of the statement they are named after. -/

namespace Sys2Proof.Tests

open Sys2Proof Sys2Proof.Machine

/-! ## WellFormed -/

-- the one check: the register number of `BXNN` is the top nibble of its NNN (R148)
theorem test_wf_refuses_jpOff_with_another_register : (Instr.jpOff 1 0x210).wf = false := by decide
theorem test_wf_accepts_jpOff_with_its_register : (Instr.jpOff 2 0x210).wf = true := by decide

/-! ## Decoding: a word of every row of R96, written out from its pattern -/

theorem test_decode_flow : decodeWord 0x00EE = .ok .ret ∧ decodeWord 0x1ABC = .ok (.jp 0xABC) ∧
    decodeWord 0x2FFE = .ok (.call 0xFFE) ∧ decodeWord 0x3F01 = .ok (.seImm 15 0x01) ∧
    decodeWord 0x4A00 = .ok (.sneImm 10 0x00) ∧ decodeWord 0x5120 = .ok (.seReg 1 2) ∧
    decodeWord 0x9340 = .ok (.sneReg 3 4) ∧ decodeWord 0xB210 = .ok (.jpOff 2 0x210) := by decide

theorem test_decode_loads_and_logic : decodeWord 0x6F12 = .ok (.ldImm 15 0x12) ∧
    decodeWord 0x7002 = .ok (.addImm 0 0x02) ∧ decodeWord 0x8210 = .ok (.ldReg 2 1) ∧
    decodeWord 0x8011 = .ok (.orReg 0 1) ∧ decodeWord 0x8012 = .ok (.andReg 0 1) ∧
    decodeWord 0x8013 = .ok (.xorReg 0 1) ∧ decodeWord 0xC30F = .ok (.rnd 3 0x0F) := by decide

theorem test_decode_arithmetic : decodeWord 0x80F4 = .ok (.addReg 0 15) ∧ decodeWord 0x8F15 = .ok (.sub 15 1) ∧
    decodeWord 0x8536 = .ok (.shr 5 3) ∧ decodeWord 0x8017 = .ok (.subn 0 1) ∧
    decodeWord 0x850E = .ok (.shl 5 0) := by decide

theorem test_decode_index_and_memory : decodeWord 0xAFFF = .ok (.ldI 0xFFF) ∧ decodeWord 0xF21E = .ok (.addI 2) ∧
    decodeWord 0xFA29 = .ok (.ldF 10) ∧ decodeWord 0xF033 = .ok (.ldB 0) ∧ decodeWord 0xF255 = .ok (.ldMemVx 2) ∧
    decodeWord 0xF365 = .ok (.ldVxMem 3) := by decide

theorem test_decode_display : decodeWord 0x00E0 = .ok .cls ∧ decodeWord 0xD12F = .ok (.drw 1 2 15) := by decide

theorem test_decode_timers_and_keys : decodeWord 0xE49E = .ok (.skp 4) ∧ decodeWord 0xE4A1 = .ok (.sknp 4) ∧
    decodeWord 0xF507 = .ok (.ldVxDt 5) ∧ decodeWord 0xF30A = .ok (.ldVxK 3) ∧ decodeWord 0xF315 = .ok (.ldDtVx 3) ∧
    decodeWord 0xF318 = .ok (.ldStVx 3) := by decide

-- X3: invalid words
theorem test_decode_invalid : decodeWord 0x00E1 = .error .group0 ∧ decodeWord 0x0123 = .error .group0 ∧
    decodeWord 0x5001 = .error .group5 ∧ decodeWord 0x9AAF = .error .group9 ∧ decodeWord 0x8008 = .error .group8 ∧
    decodeWord 0x812D = .error .group8 ∧ decodeWord 0xE09F = .error .groupE ∧ decodeWord 0xF075 = .error .groupF ∧
    decodeWord 0xFFFF = .error .groupF := by decide

-- P1, first two words; high byte first (R64)
theorem test_decode_bytes : decode [0x60, 0x00, 0x61, 0x05] = .ok (.ldImm 0 0x00, [0x61, 0x05]) ∧
    decode [0x60] = .error .truncated := by decide

theorem test_encode_is_the_pattern : encode (.drw 1 2 15) = 0xD12F ∧ encode (.jpOff 2 0x210) = 0xB210 ∧
    encode (.shl 5 0) = 0x850E ∧ encodeBytes (.ldMemVx 2) = [0xF2, 0x55] := by decide

theorem test_table_word : decodeTableWord 16 0xE0A1 = some (.sknp 0) ∧ decodeTableWord 16 0x0000 = none := by decide

/-! ## One engine step each -/

/-- The start state of 95_test_vectors.md: after reset, the word at `a`, `pc = cip = a`. -/
def place (a : Word) (w : Word) : State :=
  { State.reset with
    mem := Memory.writeList State.reset.params [] a.toNat [highByte w, lowByte w], pc := a, cip := a }

/-- The same at 0x200. -/
def start (w : Word) : State := place 0x200 w

/-- The outcome is a next state with the property. -/
def ends (o : Host.Outcome State Fault Refusal) (p : State → Bool) : Bool :=
  match o with
  | .next t => p t
  | .fault _ => false
  | .refused _ => false

/-- V`x` and VF. -/
def regAndFlag (t : State) (x : RegNum) : Byte × Byte := (t.reg x, t.reg 15)

/-- The bytes at `a`, `a + 1`, `a + 2`. -/
def three (t : State) (a : Nat) : List Byte := [t.byte a, t.byte (a + 1), t.byte (a + 2)]

-- F1, F2
theorem test_ret_pops : ends (step { place 0x212 0x00EE with stack := [0x206] })
    (fun t => t.pc == 0x206 && t.stack == [] && t.cip == 0x212) = true := by decide
theorem test_ret_underflows : ends (step (start 0x00EE))
    (fun t => t.es == .halted .stackUnderflow && t.pc == 0x202 && t.cip == 0x200) = true := by decide
-- F3
theorem test_jp : ends (step (start 0x1ABC)) (fun t => t.pc == 0xABC) = true := by decide
-- F6, F7
theorem test_call_pushes : ends (step (place 0x204 0x2210)) (fun t => t.pc == 0x210 && t.stack == [0x206]) = true := by
  decide
theorem test_call_from_the_last_slot : ends (step (place 0xFFE 0x2FFE))
    (fun t => t.pc == 0xFFE && t.stack == [0x1000]) = true := by decide
-- F8, F20
theorem test_seImm_skips : ends (step ((start 0x3F01).setReg 15 0x01)) (fun t => t.pc == 0x204) = true := by decide
theorem test_seImm_from_the_last_slot : ends (step (place 0xFFE 0x3000)) (fun t => t.pc == 0x1002) = true := by decide
-- F10, F11
theorem test_sneImm_stays : ends (step (start 0x4A00)) (fun t => t.pc == 0x202) = true := by decide
theorem test_sneImm_skips : ends (step ((start 0x4A00).setReg 10 0x01)) (fun t => t.pc == 0x204) = true := by decide
-- F12
theorem test_seReg : ends (step (((start 0x5120).setReg 1 3).setReg 2 3)) (fun t => t.pc == 0x204) = true := by decide
-- F14, F15
theorem test_sneReg_stays : ends (step (((start 0x9120).setReg 1 3).setReg 2 3)) (fun t => t.pc == 0x202) = true := by
  decide
theorem test_sneReg_skips : ends (step (((start 0x9340).setReg 3 7).setReg 4 8)) (fun t => t.pc == 0x204) = true := by
  decide
-- F17, F19
theorem test_jpOff_adds_vx_not_v0 : ends (step (((start 0xB210).setReg 2 0x04).setReg 0 0x99))
    (fun t => t.pc == 0x214) = true := by decide
theorem test_jpOff_leaves_memory : ends (step ((start 0xBFFF).setReg 15 0xFF)) (fun t => t.pc == 0x10FE) = true := by
  decide
-- A1
theorem test_ldImm : ends (step (start 0x6F12)) (fun t => t.reg 15 == 0x12 && t.pc == 0x202) = true := by decide
-- A2, A3
theorem test_addImm_no_flag : ends (step (((start 0x7002).setReg 0 0xFF).setReg 15 0x07))
    (fun t => regAndFlag t 0 == (0x01, 0x07)) = true := by decide
theorem test_addImm_into_vf : ends (step ((start 0x7FFF).setReg 15 0x01)) (fun t => t.reg 15 == 0x00) = true := by
  decide
-- A4
theorem test_ldReg : ends (step ((start 0x8210).setReg 1 0x3C)) (fun t => t.reg 2 == 0x3C) = true := by decide
-- A5
theorem test_orReg : ends (step ((((start 0x8011).setReg 0 0xF0).setReg 1 0x0F).setReg 15 0x05))
    (fun t => regAndFlag t 0 == (0xFF, 0x05)) = true := by decide
-- A6
theorem test_andReg : ends (step ((((start 0x8012).setReg 0 0xF3).setReg 1 0x3C).setReg 15 0x05))
    (fun t => regAndFlag t 0 == (0x30, 0x05)) = true := by decide
-- A7
theorem test_xorReg : ends (step ((((start 0x8013).setReg 0 0xFF).setReg 1 0x0F).setReg 15 0x05))
    (fun t => regAndFlag t 0 == (0xF0, 0x05)) = true := by decide
-- A11, A14
theorem test_addReg_carry : ends (step (((start 0x8014).setReg 0 0xFF).setReg 1 0x01))
    (fun t => regAndFlag t 0 == (0x00, 0x01)) = true := by decide
theorem test_addReg_into_vf : ends (step (((start 0x8F14).setReg 15 0xF0).setReg 1 0x20))
    (fun t => t.reg 15 == 0x01) = true := by decide
-- A19, A20
theorem test_sub_borrow : ends (step ((((start 0x8015).setReg 0 0x10).setReg 1 0x20).setReg 15 0x01))
    (fun t => regAndFlag t 0 == (0xF0, 0x00)) = true := by decide
theorem test_sub_equal_is_not_greater : ends (step ((((start 0x8015).setReg 0 0x33).setReg 1 0x33).setReg 15 0x01))
    (fun t => regAndFlag t 0 == (0x00, 0x00)) = true := by decide
-- A32, A34
theorem test_shr_ignores_y : ends (step (((start 0x8536).setReg 5 0xFF).setReg 3 0x10))
    (fun t => regAndFlag t 5 == (0x7F, 0x01) && t.reg 3 == 0x10) = true := by decide
theorem test_shr_into_vf : ends (step ((start 0x8F06).setReg 15 0x02)) (fun t => t.reg 15 == 0x00) = true := by decide
-- A25, A26
theorem test_subn : ends (step (((start 0x8017).setReg 0 0x10).setReg 1 0x20))
    (fun t => regAndFlag t 0 == (0x10, 0x01)) = true := by decide
theorem test_subn_borrow : ends (step ((((start 0x8017).setReg 0 0x20).setReg 1 0x10).setReg 15 0x01))
    (fun t => regAndFlag t 0 == (0xF0, 0x00)) = true := by decide
-- A36, A35
theorem test_shl : ends (step ((start 0x850E).setReg 5 0x81)) (fun t => regAndFlag t 5 == (0x02, 0x01)) = true := by
  decide
theorem test_shl_no_bit_out : ends (step (((start 0x850E).setReg 5 0x40).setReg 15 0x01))
    (fun t => regAndFlag t 5 == (0x80, 0x00)) = true := by decide
-- A41: a mask of 0 gives 0, whatever byte is drawn
theorem test_rnd_mask_zero : ∃ t, step ((start 0xCF00).setReg 15 0x09) = .next t ∧ t.reg 15 = 0 :=
  ⟨_, rfl, BitVec.and_zero⟩
-- M1
theorem test_ldI : ends (step (start 0xAFFF)) (fun t => t.i == 0x0FFF) = true := by decide
-- M3, M4
theorem test_addI_no_flag : ends (step (((start 0xF21E).setI 0x0FFF).setReg 2 0x01))
    (fun t => t.i == 0x1000 && t.reg 15 == 0x00 && t.es == .running) = true := by decide
theorem test_addI_wraps : ends (step (((start 0xF21E).setI 0xFFFF).setReg 2 0x02)) (fun t => t.i == 0x0001) = true := by
  decide
-- M5, M7
theorem test_ldF : ends (step ((start 0xFA29).setReg 10 0x07)) (fun t => t.i == 0x0073) = true := by decide
theorem test_ldF_whole_byte : ends (step ((start 0xFA29).setReg 10 0xFF)) (fun t => t.i == 0x054B) = true := by decide
-- M8, M12
theorem test_ldB : ends (step (((start 0xF033).setReg 0 0xFE).setI 0x300))
    (fun t => three t 0x300 == [0x02, 0x05, 0x04] && t.i == 0x300) = true := by decide
theorem test_ldB_stops_at_4096 : ends (step (((start 0xF033).setReg 0 0xFE).setI 0x0FFE))
    (fun t => t.byte 4094 == 0x02 && t.byte 4095 == 0x05 && t.es == .halted .memoryOutOfBounds && t.pc == 0x202) =
    true := by decide
/-- V0..V3 = 11 22 33 44. -/
def v0to3 (s : State) : State := (((s.setReg 0 0x11).setReg 1 0x22).setReg 2 0x33).setReg 3 0x44
-- M15, M18
theorem test_ldMemVx : ends (step ((v0to3 (start 0xF255)).setI 0x400))
    (fun t => three t 0x400 == [0x11, 0x22, 0x33] && t.byte 0x403 == 0 && t.i == 0x400) = true := by decide
theorem test_ldMemVx_stops_at_4096 : ends (step ((v0to3 (start 0xF355)).setI 0x0FFE))
    (fun t => t.byte 4094 == 0x11 && t.byte 4095 == 0x22 && t.es == .halted .memoryOutOfBounds) = true := by decide
-- M20, M22
theorem test_ldVxMem : ends (step ((((((start 0xF265).setI 0x300).setByte 0x300 2).setByte 0x301 5).setByte 0x302 4).setReg
    3 0x77)) (fun t => t.reg 0 == 2 && t.reg 1 == 5 && t.reg 2 == 4 && t.reg 3 == 0x77 && t.i == 0x300) = true := by decide
theorem test_ldVxMem_stops_at_4096 :
    ends (step ((((v0to3 (start 0xF365)).setI 0x0FFE).setByte 4094 0xAA).setByte 4095 0xBB))
      (fun t => t.reg 0 == 0xAA && t.reg 1 == 0xBB && t.reg 2 == 0x33 && t.es == .halted .memoryOutOfBounds) = true := by
  decide
-- G1
theorem test_cls : ends (step (((start 0x00E0).setPixel 3 3 true).setReg 15 1))
    (fun t => !t.pixel 3 3 && t.reg 15 == 1) = true := by decide
-- G8, G15
theorem test_drw_clips_and_collides :
    ends (step (((((start 0xD011).setReg 0 0x3E).setI 0x300).setByte 0x300 0x7F).setPixel 0 63 true |>.setPixel 0 0 true))
      (fun t => !t.pixel 0 62 && !t.pixel 0 63 && t.pixel 0 0 && t.reg 15 == 1) = true := by decide
theorem test_drw_stops_at_4096 :
    ends (step (((((start 0xD013).setI 0x0FFE).setByte 4094 0x80).setByte 4095 0x40).setPixel 0 0 true))
      (fun t => !t.pixel 0 0 && t.pixel 1 1 && t.reg 15 == 1 && t.es == .halted .memoryOutOfBounds) = true := by decide
-- K1, K4
theorem test_skp : ends (step (((place 0x230 0xE49E).setReg 4 0x0A).setKey 10 true)) (fun t => t.pc == 0x234) = true := by
  decide
theorem test_skp_does_not_mask : ends (step (((place 0x230 0xE49E).setReg 4 0x1A).setKey 10 true))
    (fun t => t.es == .halted .inputOutOfBounds && t.pc == 0x232) = true := by decide
-- K5, K6
theorem test_sknp : ends (step ((place 0x230 0xE4A1).setReg 4 0x0A)) (fun t => t.pc == 0x234) = true := by decide
theorem test_sknp_stays : ends (step (((place 0x230 0xE4A1).setReg 4 0x0A).setKey 10 true))
    (fun t => t.pc == 0x232) = true := by decide
-- K9, K10, K11
theorem test_ldVxDt : ends (step { start 0xF507 with dt := 42 }) (fun t => t.reg 5 == 0x2A && t.dt == 42) = true := by
  decide
theorem test_ldDtVx : ends (step ((start 0xF315).setReg 3 0x07)) (fun t => t.dt == 7 && t.st == 0) = true := by decide
theorem test_ldStVx : ends (step ((start 0xF318).setReg 3 0x1E))
    (fun t => t.st == 30 && t.dt == 0 && t.soundActive) = true := by decide
-- K12, K15
theorem test_ldVxK_blocks : ends (step (((start 0xF30A).setReg 3 0x55).setKey 5 true))
    (fun t => t.es == .blockedOnKey 3 && t.pc == 0x202 && t.reg 3 == 0x55) = true := by decide
theorem test_ldVxK_ends_on_a_press :
    ends (step { start 0xF30A with es := .blockedOnKey 3, pc := 0x202, agenda := [.pressKey 5] })
      (fun t => t.key 5 && t.reg 3 == 0x05 && t.es == .running && t.pc == 0x202) = true := by decide

/-! ## Faults, the timer unit and the host's events -/

-- X1, X2, X4
theorem test_reset_memory_is_no_instruction : ends (step State.reset)
    (fun t => t.es == .halted .invalidInstruction && t.pc == 0x002 && t.cip == 0x000) = true := by decide
theorem test_invalid_word : ends (step (start 0x5AB1))
    (fun t => t.es == .halted .invalidInstruction && t.pc == 0x202 && t.cip == 0x200) = true := by decide
theorem test_fetch_past_memory : ends (step { State.reset with pc := 0xFFF })
    (fun t => t.es == .halted .memoryOutOfBounds && t.pc == 0xFFF && t.cip == 0xFFF) = true := by decide
-- X6, X7
theorem test_first_fault_is_kept : ends (step { State.reset with es := .halted .stackUnderflow, agenda := [.pressKey 99] })
    (fun t => t.es == .halted .stackUnderflow) = true := by decide
theorem test_release_of_no_key : ends (step { start 0x1200 with agenda := [.releaseKey (-1)] })
    (fun t => t.es == .halted .inputOutOfBounds && t.pc == 0x200) = true := by decide
-- X11, and R273's order: the steps that fell due come before the rest of the agenda
theorem test_tick : ends (step { State.reset with agenda := [.tick (1 / 60) [true, false], .reset] })
    (fun t => t.accI == 1 / 1050 && t.accT == 0 &&
      t.agenda == [.engineStep, .timerStep] ++ List.replicate 10 .engineStep ++ [.reset]) = true := by decide +kernel
theorem test_tick_negative : step { State.reset with agenda := [.tick (-1) []] } = .refused .negativeElapsed := by
  rfl
-- S2, X16, X17's bound
theorem test_load : ends (step { State.reset with
      es := .halted .stackUnderflow, stack := [0x206], agenda := [.loadProgram [0xAA, 0xBB, 0xCC] 0x300] })
    (fun t => three t 0x300 == [0xAA, 0xBB, 0xCC] && t.byte 0x303 == 0 && t.pc == 0x300 && t.cip == 0x300 &&
      t.es == .halted .stackUnderflow && t.stack == [0x206]) = true := by decide
-- X16 with a default load
theorem test_load_without_an_address : ends (step { State.reset with agenda := [.loadProgram [0x12, 0x00]] })
    (fun t => t.byte 0x200 == 0x12 && t.byte 0x201 == 0x00 && t.pc == 0x200 && t.cip == 0x200) = true := by decide
theorem test_load_past_memory : step { State.reset with agenda := [.loadProgram [0x12, 0x00] 4095] } =
    .refused .loadPastMemory := by rfl
-- X19
theorem test_reset_font : (three State.reset 0x050 == [0xF0, 0x90, 0x90] && three State.reset 0x09B == [0xF0, 0x80, 0xF0] &&
    State.reset.byte 0x09F == 0x80 && State.reset.byte 0x04F == 0 && State.reset.byte 0x0A0 == 0) = true := by decide
-- R259's codes
theorem test_cause_codes : (start 0x00EE).causeCode = 0 ∧
    ({ State.reset with es := .halted .inputOutOfBounds } : State).causeCode = 4 := by decide
-- the memory list stays canonical: writing what reset left removes the entry
theorem test_memory_is_canonical : (State.reset.setByte 0x300 7).mem = [(0x300, 7)] ∧
    ((State.reset.setByte 0x300 7).setByte 0x300 0).mem = [] ∧ (State.reset.setByte 0x50 0xF0).mem = [] := by decide
theorem test_withFetchWord : ends (step (State.reset.withFetchWord 16 0x6F12)) (fun t => t.reg 15 == 0x12) = true := by
  decide

/-! ## Witnesses: the hypotheses of each statement, met together by a concrete state -/

theorem witness_DecodeOfEncodeIsTheInstruction : (Instr.jpOff 15 0xFFF).wf = true := by decide
theorem witness_DecodedWordIsItsEncoding : decodeWord 0xBFFF = .ok (.jpOff 15 0xFFF) := by decide
theorem witness_WordIsOfARowExactlyWhenItMatches :
    (0x1FFF : Word) &&& (Instr.jp 0).maskWord = (Instr.jp 0).matchWord ∧
      (0x1FFF : Word) &&& (Instr.jp 1).maskWord = (Instr.jp 1).matchWord := by decide
-- the last slot a fetch can read from
theorem witness_StepRunsTheDecodedInstruction : (place 0xFFE 0x6F12).nextEvent = .engineStep ∧
    (place 0xFFE 0x6F12).es = .running ∧ (place 0xFFE 0x6F12).pc.toNat + 1 < 4096 ∧
    decodeWord (BitVec.ofNat 16 (((place 0xFFE 0x6F12).byte 4094).toNat * 256 +
      ((place 0xFFE 0x6F12).byte 4095).toNat)) = .ok (.ldImm 15 0x12) := by decide
-- the first it cannot
theorem witness_FetchPastMemoryHalts : (place 0xFFF 0).nextEvent = .engineStep ∧ (place 0xFFF 0).es = .running ∧
    4095 ≤ (place 0xFFF 0).pc.toNat := by decide
theorem witness_InvalidWordHalts : (place 0xFFE 0x5AB1).nextEvent = .engineStep ∧
    (place 0xFFE 0x5AB1).es = .running ∧ (place 0xFFE 0x5AB1).pc.toNat + 1 < 4096 ∧
    decodeWord (BitVec.ofNat 16 (((place 0xFFE 0x5AB1).byte 4094).toNat * 256 +
      ((place 0xFFE 0x5AB1).byte 4095).toNat)) = .error .group5 := by decide
/-- An engine waiting for a key, and one that has halted. -/
def blocked : State := { State.reset with es := .blockedOnKey 3 }
def halted : State := { State.reset with es := .halted .stackUnderflow }
theorem witness_BlockedAndHaltedEngineStepsDoNothing : blocked.nextEvent = .engineStep ∧ blocked.es ≠ .running ∧
    halted.nextEvent = .engineStep ∧ halted.es ≠ .running := by decide
-- no instruction at the first address without a word and at the last with one, a jump to the last target, a skip from the
-- last slot, and an instruction that halts
theorem witness_PcAfterEachInstruction : (place 0xFFF 0).currentInstr = none ∧ (place 0xFFE 0).currentInstr = none ∧
    (place 0xFFE 0).nextEvent = .engineStep ∧ (place 0xFFE 0).es = .running ∧
    ((start 0xBFFF).setReg 15 0xFF).currentInstr = some (.jpOff 15 0xFFF) ∧
    (place 0xFFE 0x3000).currentInstr = some (.seImm 0 0) ∧ (start 0x00EE).currentInstr = some .ret ∧
    ends (step (start 0x00EE)) State.isHalted = true := by decide
theorem witness_RetPopsTheStackOrUnderflows : { State.reset with stack := [0x206, 0x1000] }.stack = 0x206 :: [0x1000] ∧
    State.reset.stack = [] ∧ State.reset.es = .running := by decide
theorem witness_JumpsAndCallSetThePc : (15 : RegNum).val = (0xFFF : Addr12).toNat / 256 := by decide
-- the clause of AddWritesSumAndCarry, SubtractionsWriteDifferenceAndStrictFlag and ShiftsMoveVxInPlaceAndIgnoreY about a
-- destination other than VF
theorem witness_FlagWritersBesideVf : (14 : RegNum) ≠ 15 := by decide
theorem witness_RndMasksOneFreeByte : ∃ t, exec (.rnd 0 0xFF) State.reset = .next t ∧ t.draws ≠ State.reset.draws :=
  ⟨_, rfl, by decide⟩
-- the last I at which three digits, and two registers, fit, and the first at which they do not
theorem witness_DecimalStoreWritesThreeDigits : (State.reset.setI 0xFFD).es = .running ∧
    (State.reset.setI 0xFFD).effAddr 2 < 4096 ∧ 4096 ≤ (State.reset.setI 0xFFE).effAddr 2 := by decide
theorem witness_RegisterBlockStore : (State.reset.setI 0xFFE).es = .running ∧
    (State.reset.setI 0xFFE).effAddr (1 : RegNum).val < 4096 ∧ 4096 ≤ (State.reset.setI 0xFFF).effAddr (1 : RegNum).val := by
  decide
theorem witness_RegisterBlockLoad : (State.reset.setI 0xFF0).es = .running ∧
    (State.reset.setI 0xFF0).effAddr (15 : RegNum).val < 4096 ∧ 4096 ≤ (State.reset.setI 0xFF1).effAddr (15 : RegNum).val := by
  decide
/-- A state over a sprite row 80 at 0xFFF with the cell (0, 0) lit. -/
def overSprite : State := ((State.reset.setI 0xFFF).setByte 0xFFF 0x80).setPixel 0 0 true
-- the last row that has a byte, the first that has none, a hit, and no hit
theorem witness_DrawXorsTheSpriteAndReportsCollision : overSprite.es = .running ∧
    1 = min (1 : Fin 16).val (4096 - overSprite.i.toNat) ∧ min (2 : Fin 16).val (4096 - overSprite.i.toNat) < 2 ∧
    overSprite.spritePixel 0 0 1 0 0 = true ∧ overSprite.pixel 0 0 = true ∧
    ends (exec (.drw 0 1 0) overSprite) (fun t => t.reg 15 == 0) = true := by decide
theorem witness_DrawingTwiceRestoresTheDisplay : ∃ t u, overSprite.i.toNat + (1 : Fin 16).val ≤ 4096 ∧
    exec (.drw 0 1 1) overSprite = .next t ∧ exec (.drw 0 1 1) t = .next u :=
  ⟨_, _, by decide, rfl, rfl⟩
theorem witness_KeySkipsTestOneKey : ((State.reset.setReg 4 15).reg 4).toNat = (15 : Fin 16).val ∧
    15 < ((State.reset.setReg 4 16).reg 4).toNat ∧ (State.reset.setReg 4 16).es = .running := by decide
theorem witness_KeyWaitBlocksUntilAPress : { blocked with agenda := [.pressKey 15] }.es = .blockedOnKey 3 ∧
    { blocked with agenda := [.pressKey 15] }.agenda = [.pressKey ((15 : Fin 16).val : Int)] := by decide
theorem witness_RaiseHaltsAndKeepsTheFirstFault : (∀ g, State.reset.es ≠ .halted g) ∧
    halted.es = .halted .stackUnderflow := ⟨by rintro g ⟨⟩, rfl⟩
theorem witness_EachInstructionHasOneFaultKind :
    ends (exec .ret State.reset) (fun t => t.es == .halted .stackUnderflow) = true ∧
    ends (exec (.skp 4) (State.reset.setReg 4 16)) (fun t => t.es == .halted .inputOutOfBounds) = true ∧
    ends (exec (.ldB 0) (State.reset.setI 0xFFE)) (fun t => t.es == .halted .memoryOutOfBounds) = true := by decide
theorem witness_OnlyResetLeavesHalted : halted.es = .halted .stackUnderflow ∧
    ends (step { halted with agenda := [.timerStep] }) (fun _ => true) = true ∧
    { halted with agenda := [.timerStep] }.nextEvent ≠ .reset := by decide
-- one step for each of the four transitions
theorem witness_EngineStateTransitionsAreComplete :
    ends (step (start 0xF30A)) (fun t => t.es == .blockedOnKey 3) = true ∧
    ends (step { blocked with agenda := [.pressKey 0] }) (fun t => t.es == .running) = true ∧
    ends (step { blocked with agenda := [.pressKey 16] }) (fun t => t.es == .halted .inputOutOfBounds) = true ∧
    ends (step { halted with agenda := [.reset] }) (fun t => t.es == .running) = true := by decide
theorem witness_TimerStepCountsBothDown : { halted with dt := 1, agenda := [.timerStep] }.agenda = [.timerStep] := by
  decide
theorem witness_TickReleasesTheStepsThatFellDue : (-1 / 60 : Rat) < 0 ∧ (0 : Rat) ≤ 0 ∧ 0 ≤ State.reset.accI ∧
    0 ≤ State.reset.accT ∧ { State.reset with agenda := [.tick 0 []] }.agenda = [.tick 0 []] := by decide +kernel
-- 1/60 s from reset: 11 whole periods of 1/700 s and exactly 1 of 1/60 s
theorem witness_EveryMergeOfATickIsAdmitted : (0 : Rat) ≤ 1 / 60 ∧ 0 ≤ State.reset.accI ∧ 0 ≤ State.reset.accT ∧
    (11 / State.reset.params.ips ≤ State.reset.accI + 1 / 60 ∧ State.reset.accI + 1 / 60 < (11 + 1) / State.reset.params.ips) ∧
    (1 / 60 ≤ State.reset.accT + 1 / 60 ∧ State.reset.accT + 1 / 60 < (1 + 1) / 60) := by decide +kernel
-- R274: the timer step of that tick may come first, or among the engine steps
theorem test_tick_order :
    ends (step { State.reset with agenda := [.tick (1 / 60) [false], .reset] })
      (fun t => t.agenda == .timerStep :: (List.replicate 11 .engineStep ++ [.reset])) = true ∧
    ends (step { State.reset with agenda := [.tick (1 / 60) [true, false], .reset] })
      (fun t => t.agenda == .engineStep :: .timerStep :: (List.replicate 10 .engineStep ++ [.reset])) = true := by
  decide +kernel
theorem witness_TickOfAStoppedEngineOnlyCountsTimers : { halted with dt := 65, agenda := [.tick 1 []] }.es ≠ .running ∧
    { halted with dt := 65, agenda := [.tick 1 []] }.agenda = [.tick 1 []] ∧ (0 : Rat) ≤ 1 ∧ 0 ≤ halted.accI ∧
    0 ≤ halted.accT := by decide +kernel
theorem witness_ValidKeyEventsSetOneKey :
    { blocked with agenda := [.pressKey 0] }.agenda = [.pressKey ((0 : Fin 16).val : Int)] ∧
    { halted with agenda := [.releaseKey 15] }.agenda = [.releaseKey ((15 : Fin 16).val : Int)] ∧
    blocked.es = .blockedOnKey 3 ∧ ∀ r, halted.es ≠ .blockedOnKey r :=
  ⟨rfl, rfl, rfl, by rintro r ⟨⟩⟩
theorem witness_OutOfRangeKeyEventsHalt : ((-1 : Int) < 0 ∨ 15 < (-1 : Int)) ∧ ((16 : Int) < 0 ∨ 15 < (16 : Int)) ∧
    { blocked with agenda := [.pressKey 16] }.agenda = [.pressKey 16] ∧
    { halted with agenda := [.releaseKey (-1)] }.agenda = [.releaseKey (-1)] := by decide
-- the longest load that fits at its address, and one byte more
theorem witness_LoadCopiesTheImageOrIsRefused :
    { State.reset with agenda := [.loadProgram [1, 2] 0xFFE] }.agenda = [.loadProgram [1, 2] 0xFFE] ∧
    (0xFFE : Word).toNat + [(1 : Byte), 2].length ≤ 4096 ∧ 4096 < (0xFFF : Word).toNat + [(1 : Byte), 2].length := by
  decide
theorem witness_LoadWithoutAnAddressGoesTo0x200 :
    { halted with agenda := [.loadProgram [0x12, 0x00]] }.agenda = [.loadProgram [0x12, 0x00]] ∧
    (List.replicate 3584 (0 : Byte)).length ≤ 3584 ∧ 3584 < (List.replicate 3585 (0 : Byte)).length := by
  refine ⟨rfl, ?_, ?_⟩ <;> rw [List.length_replicate] <;> decide
theorem witness_ResetEventGivesTheResetState : { halted with agenda := [.reset, .timerStep] }.agenda = [.reset, .timerStep] := by
  decide
theorem witness_InitialStateHasTheResetValues : State.reset = State.resetWith defaultParams := rfl
-- for each written component, an instruction that changes it
theorem witness_EachComponentHasItsWriters :
    ends (exec (.ldI 1) State.reset) (fun t => t.i != State.reset.i) = true ∧
    ends (exec (.call 1) State.reset) (fun t => t.stack != State.reset.stack) = true ∧
    ends (exec (.ldDtVx 0) (State.reset.setReg 0 1)) (fun t => t.dt != 0) = true ∧
    ends (exec (.ldStVx 0) (State.reset.setReg 0 1)) (fun t => t.st != 0) = true ∧
    ends (exec .cls overSprite) (fun t => t.pixel 0 0 != overSprite.pixel 0 0) = true ∧
    ends (exec (.ldMemVx 0) (State.reset.setReg 0 1)) (fun t => t.mem != State.reset.mem) = true := by decide
theorem witness_EachInstructionHasItsRegisters : ∃ t, exec (.ldVxMem 3) State.reset = .next t := ⟨_, rfl⟩
theorem witness_HiddenStateIsNotReadByInstructions : ∃ t, exec (.drw 0 1 1) overSprite = .next t := ⟨_, rfl⟩
theorem witness_TimersRiseOnlyByTheirInstruction :
    ends (step ((start 0xF315).setReg 3 1)) (fun t => decide ((start 0xF315).dt.toNat < t.dt.toNat)) = true ∧
    ends (step ((start 0xF318).setReg 3 1)) (fun t => decide ((start 0xF318).st.toNat < t.st.toNat)) = true := by decide
/-- The state in which P4's `LD [I],V1` executes, with the next instruction in the last slot. -/
def selfModifying : State := (((State.reset.setPc 0xFFE).setI 0xFFE).setReg 0 0x62).setReg 1 0x33
theorem witness_StoreIsSeenByTheNextFetch : 1 ≤ (1 : RegNum).val ∧ selfModifying.es = .running ∧
    selfModifying.nextEvent = .engineStep ∧ selfModifying.i = selfModifying.pc ∧
    selfModifying.pc.toNat + (1 : RegNum).val < 4096 ∧ ends (exec (.ldMemVx 1) selfModifying) (fun _ => true) = true ∧
    decodeWord (BitVec.ofNat 16 ((selfModifying.reg 0).toNat * 256 + (selfModifying.reg 1).toNat)) =
      .ok (.ldImm 2 0x33) := by decide
theorem witness_StepsKeepTheParameters : ∃ t, step (start 0x6F12) = .next t := ⟨_, rfl⟩
theorem witness_CanonicalMemoriesThatReadAlikeAreEqual : Memory.wf defaultParams [(0x300, 1)] = true ∧
    Memory.wf defaultParams (Memory.write defaultParams [] 0x300 1) = true ∧
    ∀ a, Memory.read defaultParams [(0x300, 1)] a =
      Memory.read defaultParams (Memory.write defaultParams [] 0x300 1) a :=
  ⟨by decide, by decide, fun _ => rfl⟩
/-- A state no reset leaves, whose next step stores, and one whose next step returns. -/
def storing : State := v0to3 ((start 0xF355).setI 0x0FFE)
def returning : State := { place 0xFFE 0x00EE with stack := [0x1000, 2] }
theorem witness_StepsKeepMemoryCanonical : storing.MemCanonical ∧ ends (step storing) (fun _ => true) = true :=
  ⟨by show Memory.wf storing.params storing.mem = true; decide, by decide⟩
theorem witness_StepsKeepPcBounded : returning.PcBounded ∧ ends (step returning) (fun _ => true) = true :=
  ⟨⟨by decide, by decide, by simp [returning]⟩, by decide⟩
theorem witness_StepsKeepAccumulatorsBelowOnePeriod :
    { State.reset with accI := 1 / 701, accT := 1 / 61, agenda := [.tick (1 / 60) []] }.AccBounded ∧
    ends (step { State.reset with accI := 1 / 701, accT := 1 / 61, agenda := [.tick (1 / 60) []] }) (fun _ => true) =
      true :=
  ⟨⟨by decide +kernel, by decide +kernel, by decide +kernel, by decide +kernel⟩, by decide +kernel⟩

end Sys2Proof.Tests
end

/-! # Proofs: scope and parameters (00_scope.md)

The parameters of R6 that no step writes, and the fixed one, LOAD_ADDRESS, that a load without an address goes to. -/

namespace Sys2Proof.Machine

/-! ## What the operations of a step leave in `params` -/

theorem exec_params {i : Instr} {s t : State} (h : exec i s = .next t) : t.params = s.params := by
  obtain ⟨-, -, -, -, hparams, -⟩ := exec_keeps h
  exact hparams

@[simp] theorem State.fetchFault_params (s : State) : s.fetchFault.params = s.params := by
  simp [State.fetchFault]

@[simp] theorem State.pressKey_params (s : State) (k : Int) : (s.pressKey k).params = s.params := by
  unfold State.pressKey
  split
  · simp
  · split <;> simp

@[simp] theorem State.releaseKey_params (s : State) (k : Int) : (s.releaseKey k).params = s.params := by
  unfold State.releaseKey
  split <;> simp

theorem execTick_params {elapsed : Rat} {order : List Bool} {s t : State} (h : execTick elapsed order s = .next t) :
    t.params = s.params := by
  unfold execTick at h
  split at h
  · cases h
  · cases h; rfl

/-- Settles O51, by the cases of a step (`step_cases`). -/
theorem stepsKeepTheParameters : Obligations.StepsKeepTheParameters := by
  intro s t h
  obtain ⟨i, -, -, -, -, hexec⟩ | ⟨-, -, -, rfl⟩ | ⟨-, -, -, rfl⟩ | ⟨-, -, rfl⟩ | ⟨-, rfl⟩ | ⟨-, rfl⟩ |
    ⟨bytes, address, -, -, rfl⟩ | ⟨elapsed, order, -, -, htick⟩ | ⟨k, -, rfl⟩ | ⟨k, -, rfl⟩ := step_cases h
  · simp [exec_params hexec]
  · exact State.fetchFault_params _
  · exact State.raise_params _ _
  · rfl
  · rfl
  · rfl
  · rfl
  · simp [execTick_params htick]
  · exact State.pressKey_params _ k
  · exact State.releaseKey_params _ k

/-! ## A program load (R305, R306), at any address -/

/-- The state a load that fits leaves (R305). -/
def State.loaded (s : State) (bytes : List Byte) (address : Word) : State :=
  { s with mem := Memory.writeList s.params s.mem address.toNat bytes, pc := address, cip := address }

@[simp] theorem State.loaded_pc (s : State) (bytes : List Byte) (address : Word) :
    (s.loaded bytes address).pc = address := rfl
@[simp] theorem State.loaded_cip (s : State) (bytes : List Byte) (address : Word) :
    (s.loaded bytes address).cip = address := rfl
@[simp] theorem State.loaded_agenda (s : State) (bytes : List Byte) (address : Word) :
    (s.loaded bytes address).agenda = s.agenda := rfl

theorem execLoadProgram_of_fits {bytes : List Byte} {address : Word} (h : address.toNat + bytes.length ≤ 4096)
    (s : State) : execLoadProgram bytes address s = .next (s.loaded bytes address) :=
  if_pos h

theorem execLoadProgram_of_too_long {bytes : List Byte} {address : Word} (h : 4096 < address.toNat + bytes.length)
    (s : State) : execLoadProgram bytes address s = .refused .loadPastMemory :=
  if_neg (Nat.not_le.mpr h)

theorem State.byte_loaded (s : State) (bytes : List Byte) (address : Word) (a : Nat) :
    (s.loaded bytes address).byte a =
      if address.toNat ≤ a ∧ a < address.toNat + bytes.length then bytes.getD (a - address.toNat) 0 else s.byte a :=
  Memory.read_writeList s.params bytes s.mem address.toNat a

/-- Byte `j` of the image stands `j` past the load address. -/
theorem State.byte_loaded_image (s : State) (bytes : List Byte) (address : Word) (j : Nat) (h : j < bytes.length) :
    (s.loaded bytes address).byte (address.toNat + j) = bytes[j] := by
  rw [State.byte_loaded, if_pos (by omega), Nat.add_sub_cancel_left, List.getD_eq_getElem _ _ h]

theorem State.byte_loaded_outside (s : State) (bytes : List Byte) (address : Word) (a : Nat)
    (h : a < address.toNat ∨ address.toNat + bytes.length ≤ a) : (s.loaded bytes address).byte a = s.byte a := by
  rw [State.byte_loaded, if_neg (by omega)]

/-- A load writes memory, `pc` and `cip`; as an event it has also left the agenda. -/
theorem State.loaded_sameBut (s : State) (bytes : List Byte) (address : Word) (rest : List Event) :
    SameBut [.mem, .pc, .cip, .agenda] s ({ s with agenda := rest }.loaded bytes address) := by
  intro c hc
  cases c
  case mem | pc | cip | agenda => simp at hc
  all_goals simp [Comp.same, State.loaded, State.reg, State.pixel, State.key]

/-- The step at a load that fits. -/
theorem step_loadProgram_of_fits {s : State} {bytes : List Byte} {address : Word} {rest : List Event}
    (hs : s.agenda = .loadProgram bytes address :: rest) (h : address.toNat + bytes.length ≤ 4096) :
    step s = .next ({ s with agenda := rest }.loaded bytes address) :=
  (step_of_agenda hs).trans (execLoadProgram_of_fits h _)

/-- The step at a load that does not fit. -/
theorem step_loadProgram_of_too_long {s : State} {bytes : List Byte} {address : Word} {rest : List Event}
    (hs : s.agenda = .loadProgram bytes address :: rest) (h : 4096 < address.toNat + bytes.length) :
    step s = .refused .loadPastMemory :=
  (step_of_agenda hs).trans (execLoadProgram_of_too_long h _)

@[simp] theorem loadAddress_toNat : Config.loadAddress.toNat = 0x200 := rfl

/-- Settles O57: the load at any address, at LOAD_ADDRESS, which leaves 4096 - 0x200 = 3584 bytes of room. -/
theorem loadWithoutAnAddressGoesTo0x200 : Obligations.LoadWithoutAnAddressGoesTo0x200 := by
  intro s bytes rest hs
  have haddr := loadAddress_toNat
  constructor
  · intro hlen
    exact ⟨_, step_loadProgram_of_fits hs (by omega), by simp, by simp, by simp,
      State.byte_loaded_image _ bytes Config.loadAddress, State.byte_loaded_outside _ bytes Config.loadAddress,
      State.loaded_sameBut s bytes Config.loadAddress rest⟩
  · intro hlen
    exact step_loadProgram_of_too_long hs (by omega)

end Sys2Proof.Machine

/-! # Proofs: the state (10_state.md)

What each instruction writes stands once, in the table `writtenBy`, and `exec_keepsBut` says that nothing else changes.
The frames of the instructions (O46, O47), the transitions of `es` (O35), the rule of `pc` (O12) and the invariants (O54,
O55) rest on it and on what the few instructions that may fault do. -/

namespace Sys2Proof.Machine

/-! ## Frames by equality

`Comp.same` compares memory and the display by reading them; here a component is kept when its data are equal. -/

/-- The data of the component are the same in both states. -/
def Comp.Kept : Comp → State → State → Prop
  | .regs, s, t => t.v = s.v
  | .i, s, t => t.i = s.i
  | .pc, s, t => t.pc = s.pc
  | .stack, s, t => t.stack = s.stack
  | .dt, s, t => t.dt = s.dt
  | .st, s, t => t.st = s.st
  | .es, s, t => t.es = s.es
  | .mem, s, t => t.mem = s.mem
  | .fb, s, t => t.fb = s.fb
  | .keys, s, t => t.keys = s.keys
  | .cip, s, t => t.cip = s.cip
  | .accI, s, t => t.accI = s.accI
  | .accT, s, t => t.accT = s.accT
  | .params, s, t => t.params = s.params
  | .draws, s, t => t.draws = s.draws
  | .dumps, s, t => t.dumps = s.dumps
  | .agenda, s, t => t.agenda = s.agenda

/-- The data of every component but the named ones are the same in `t` as in `s`. -/
def KeepsBut (written : List Comp) (s t : State) : Prop := ∀ c, c ∉ written → c.Kept s t

/-- Equal data read alike; memory is read under the parameters, which must be kept too. -/
theorem KeepsBut.sameBut {written : List Comp} {s t : State} (h : KeepsBut written s t)
    (hp : t.params = s.params) : SameBut written s t := by
  intro c hc
  have hk := h c hc
  cases c
  case regs => intro r; simp only [State.reg, show t.v = s.v from hk]
  case mem => intro a; simp only [State.byte, hp, show t.mem = s.mem from hk]
  case fb => intro r c; simp only [State.pixel, show t.fb = s.fb from hk]
  case keys => intro k; simp only [State.key, show t.keys = s.keys from hk]
  all_goals exact hk

theorem KeepsBut.mono {cs ds : List Comp} {s t : State} (h : KeepsBut cs s t) (hsub : cs ⊆ ds) : KeepsBut ds s t :=
  fun c hc => h c fun hm => hc (hsub hm)

theorem KeepsBut.trans {cs : List Comp} {s t u : State} (h : KeepsBut cs s t) (h' : KeepsBut cs t u) :
    KeepsBut cs s u := by
  intro c hc
  have hst := h c hc
  have htu := h' c hc
  cases c <;> exact htu.trans hst

theorem keepsBut_setReg (s : State) (r : RegNum) (b : Byte) : KeepsBut [.regs] s (s.setReg r b) := by
  intro c hc; cases c <;> simp_all [Comp.Kept]

theorem keepsBut_setResultThenFlag (s : State) (x : RegNum) (b : Byte) (f : Bool) :
    KeepsBut [.regs] s (s.setResultThenFlag x b f) :=
  (keepsBut_setReg s x b).trans (keepsBut_setReg _ vf _)

theorem keepsBut_setPc (s : State) (w : Word) : KeepsBut [.pc] s (s.setPc w) := by
  intro c hc; cases c <;> simp_all [Comp.Kept]

theorem keepsBut_skipIf (s : State) (b : Bool) : KeepsBut [.pc] s (s.skipIf b) := by
  intro c hc; cases c <;> simp_all [Comp.Kept]

theorem keepsBut_setI (s : State) (w : Word) : KeepsBut [.i] s (s.setI w) := by
  intro c hc; cases c <;> simp_all [Comp.Kept]

theorem keepsBut_raise (s : State) (f : FaultKind) : KeepsBut [.es, .dumps] s (s.raise f) := by
  intro c hc; cases c <;> simp_all [Comp.Kept]

theorem keepsBut_storeBytes (bs : List Byte) (a : Nat) (s : State) :
    KeepsBut [.mem, .es, .dumps] s (State.storeBytes bs a s) := by
  rw [State.storeBytes_keeps]
  intro c hc; cases c <;> simp_all [Comp.Kept]

theorem keepsBut_loadRegs (rs : List RegNum) (a : Nat) (s : State) :
    KeepsBut [.regs, .es, .dumps] s (State.loadRegs rs a s) := by
  rw [State.loadRegs_keeps]
  intro c hc; cases c <;> simp_all [Comp.Kept]

theorem keepsBut_drawRows (x0 y0 n row : Nat) (s : State) :
    KeepsBut [.regs, .fb, .es, .dumps] s (State.drawRows x0 y0 n row s) := by
  rw [State.drawRows_keeps]
  intro c hc; cases c <;> simp_all [Comp.Kept]

/-! ## The instructions that test before they act -/

/-- RET takes its fault, or pops the head of the stack into `pc` (R141). -/
theorem exec_ret_cases {s t : State} (h : exec .ret s = .next t) :
    (s.stack = [] ∧ t = s.raise .stackUnderflow) ∨
    (∃ w rest, s.stack = w :: rest ∧ t = { s with pc := w, stack := rest }) := by
  simp only [exec, execRet] at h
  split at h
  · cases h; exact .inl ⟨‹_›, rfl⟩
  · cases h; exact .inr ⟨_, _, ‹_›, rfl⟩

/-- A byte names the key it counts, or none. -/
theorem keyOperand_cases (b : Byte) : keyOperand b = none ∨ ∃ k : Fin 16, k.val = b.toNat ∧ keyOperand b = some k := by
  by_cases hb : 15 < b.toNat
  · exact .inl (keyOperand_eq_none hb)
  · exact .inr ⟨⟨b.toNat, by omega⟩, rfl, keyOperand_eq_some rfl⟩

/-- SKP takes its fault, or skips when the key V[X] names is held (R231). -/
theorem exec_skp_cases {x : RegNum} {s t : State} (h : exec (.skp x) s = .next t) :
    t = s.raise .inputOutOfBounds ∨ ∃ k : Fin 16, k.val = (s.reg x).toNat ∧ t = s.skipIf (s.key k) := by
  simp only [exec, execSkp] at h
  obtain hb | ⟨k, hk, hb⟩ := keyOperand_cases (s.reg x)
  · rw [hb] at h; cases h; exact .inl rfl
  · rw [hb] at h; cases h; exact .inr ⟨k, hk, rfl⟩

/-- SKNP takes its fault, or skips when the key V[X] names is not held (R232). -/
theorem exec_sknp_cases {x : RegNum} {s t : State} (h : exec (.sknp x) s = .next t) :
    t = s.raise .inputOutOfBounds ∨ ∃ k : Fin 16, k.val = (s.reg x).toNat ∧ t = s.skipIf (!s.key k) := by
  simp only [exec, execSknp] at h
  obtain hb | ⟨k, hk, hb⟩ := keyOperand_cases (s.reg x)
  · rw [hb] at h; cases h; exact .inl rfl
  · rw [hb] at h; cases h; exact .inr ⟨k, hk, rfl⟩

/-- What both key skips come to where the condition does not matter. -/
theorem exec_keySkip_cases {i : Instr} {s t : State} (hi : (∃ x, i = .skp x) ∨ ∃ x, i = .sknp x)
    (h : exec i s = .next t) : t = s.raise .inputOutOfBounds ∨ ∃ held : Bool, t = s.skipIf held := by
  obtain ⟨x, rfl⟩ | ⟨x, rfl⟩ := hi
  · exact (exec_skp_cases h).imp_right fun ⟨k, _, ht⟩ => ⟨_, ht⟩
  · exact (exec_sknp_cases h).imp_right fun ⟨k, _, ht⟩ => ⟨_, ht⟩

/-! ## What each instruction writes -/

/-- The components an instruction may change, on its fault paths too: the writes column of R23, carried on to every
component of the state. -/
def writtenBy : Instr → List Comp
  | .cls => [.fb]
  | .ret => [.pc, .stack, .es, .dumps]
  | .call _ => [.pc, .stack]
  | .jp _ | .jpOff _ _ | .seImm _ _ | .sneImm _ _ | .seReg _ _ | .sneReg _ _ => [.pc]
  | .skp _ | .sknp _ => [.pc, .es, .dumps]
  | .ldImm _ _ | .addImm _ _ | .ldReg _ _ | .orReg _ _ | .andReg _ _ | .xorReg _ _ | .ldVxDt _ => [.regs]
  | .addReg _ _ | .sub _ _ | .shr _ _ | .subn _ _ | .shl _ _ => [.regs]
  | .rnd _ _ => [.regs, .draws]
  | .drw _ _ _ => [.regs, .fb, .es, .dumps]
  | .ldI _ | .addI _ | .ldF _ => [.i]
  | .ldVxK _ => [.es]
  | .ldDtVx _ => [.dt]
  | .ldStVx _ => [.st]
  | .ldB _ | .ldMemVx _ => [.mem, .es, .dumps]
  | .ldVxMem _ => [.regs, .es, .dumps]

/-- An instruction leaves every component that its row of `writtenBy` does not name. -/
theorem exec_keepsBut {i : Instr} {s t : State} (h : exec i s = .next t) : KeepsBut (writtenBy i) s t := by
  cases i
  case ret =>
    obtain ⟨-, rfl⟩ | ⟨w, rest, -, rfl⟩ := exec_ret_cases h
    · exact (keepsBut_raise s _).mono (by simp [writtenBy])
    · intro c hc; cases c <;> simp_all [Comp.Kept, writtenBy]
  case skp | sknp =>
    obtain rfl | ⟨held, rfl⟩ := exec_keySkip_cases (by simp) h
    · exact (keepsBut_raise s _).mono (by simp [writtenBy])
    · exact (keepsBut_skipIf s _).mono (by simp [writtenBy])
  case jp | jpOff => cases h; exact keepsBut_setPc s _
  case seImm | sneImm | seReg | sneReg => cases h; exact keepsBut_skipIf s _
  case ldImm | addImm | ldReg | orReg | andReg | xorReg | ldVxDt => cases h; exact keepsBut_setReg s _ _
  case addReg | sub | shr | subn | shl => cases h; exact keepsBut_setResultThenFlag s _ _ _
  case ldI | addI | ldF => cases h; exact keepsBut_setI s _
  case ldB | ldMemVx => cases h; exact keepsBut_storeBytes _ _ s
  case ldVxMem => cases h; exact keepsBut_loadRegs _ _ s
  case drw x y n =>
    cases h
    exact ((keepsBut_setReg s vf _).mono (by simp [writtenBy])).trans (keepsBut_drawRows _ _ _ _ (s.setFlag false))
  case cls | call | rnd | ldVxK | ldDtVx | ldStVx =>
    cases h
    intro c hc; cases c <;> simp_all [Comp.Kept, writtenBy]

/-- A component whose data an instruction changes stands in the instruction's row of `writtenBy`. -/
theorem mem_writtenBy {i : Instr} {s t : State} (h : exec i s = .next t) {c : Comp} (hc : ¬ c.Kept s t) :
    c ∈ writtenBy i :=
  by_contra fun hm => hc (exec_keepsBut h c hm)

/-! The table read by component. -/

theorem i_mem_writtenBy {i : Instr} (h : Comp.i ∈ writtenBy i) :
    (∃ nnn, i = .ldI nnn) ∨ (∃ x, i = .addI x) ∨ ∃ x, i = .ldF x := by
  cases i <;> simp [writtenBy] at h ⊢

theorem stack_mem_writtenBy {i : Instr} (h : Comp.stack ∈ writtenBy i) : i = .ret ∨ ∃ nnn, i = .call nnn := by
  cases i <;> simp [writtenBy] at h ⊢

theorem dt_mem_writtenBy {i : Instr} (h : Comp.dt ∈ writtenBy i) : ∃ x, i = .ldDtVx x := by
  cases i <;> simp [writtenBy] at h ⊢

theorem st_mem_writtenBy {i : Instr} (h : Comp.st ∈ writtenBy i) : ∃ x, i = .ldStVx x := by
  cases i <;> simp [writtenBy] at h ⊢

theorem fb_mem_writtenBy {i : Instr} (h : Comp.fb ∈ writtenBy i) : i = .cls ∨ ∃ x y n, i = .drw x y n := by
  cases i <;> simp [writtenBy] at h ⊢

theorem mem_mem_writtenBy {i : Instr} (h : Comp.mem ∈ writtenBy i) : (∃ x, i = .ldB x) ∨ ∃ x, i = .ldMemVx x := by
  cases i <;> simp [writtenBy] at h ⊢

/-- Settles O46: a changed component is in the instruction's row of the table; `exec_keeps` has the six that are in no
row. -/
theorem eachComponentHasItsWriters : Obligations.EachComponentHasItsWriters := by
  intro i s t h
  exact ⟨fun hne => i_mem_writtenBy (mem_writtenBy h hne), fun hne => stack_mem_writtenBy (mem_writtenBy h hne),
    fun hne => dt_mem_writtenBy (mem_writtenBy h hne), fun hne => st_mem_writtenBy (mem_writtenBy h hne),
    fun hne => fb_mem_writtenBy (mem_writtenBy h hne), fun hne => mem_mem_writtenBy (mem_writtenBy h hne),
    exec_keeps h⟩

/-! ## Which registers change (R23) -/

theorem regsBut_setReg (s : State) (r : RegNum) (b : Byte) : RegsBut [r] s (s.setReg r b) := by
  intro q hq
  rw [State.reg_setReg, if_neg (by simpa using hq)]

theorem regsBut_setResultThenFlag (s : State) (x : RegNum) (b : Byte) (f : Bool) :
    RegsBut [x, 15] s (s.setResultThenFlag x b f) := by
  intro q hq
  simp only [List.mem_cons, List.not_mem_nil, or_false, not_or] at hq
  obtain ⟨hx, hvf⟩ := hq
  rw [State.reg_setResultThenFlag, if_neg (show q ≠ vf from hvf), if_neg hx]

/-- An instruction that does not write V keeps every register. -/
theorem regsBut_nil_of_notMem {i : Instr} {s t : State} (h : exec i s = .next t) (hi : Comp.regs ∉ writtenBy i) :
    RegsBut [] s t := by
  intro r _
  have hv : t.v = s.v := exec_keepsBut h .regs hi
  simp only [State.reg, hv]

/-- A load leaves the registers outside its list, also where it faults. -/
theorem State.reg_loadRegs_of_notMem (rs : List RegNum) (q : RegNum) (hq : q ∉ rs) : ∀ (a : Nat) (s : State),
    (State.loadRegs rs a s).reg q = s.reg q := by
  induction rs with
  | nil => intro a s; rfl
  | cons r rs ih =>
    intro a s
    rw [List.mem_cons, not_or] at hq
    rw [State.loadRegs]
    cases s.memRead a with
    | none => exact State.raise_reg s _ q
    | some b => exact (ih hq.2 _ _).trans (by rw [State.reg_setReg, if_neg hq.1])

theorem le_of_mem_regsUpTo {x q : RegNum} (h : q ∈ regsUpTo x) : q.val ≤ x.val := by
  obtain ⟨j, hj, rfl⟩ := List.getElem_of_mem h
  rw [length_regsUpTo] at hj
  have hval : (regsUpTo x)[j].val = j := by simp [regsUpTo]
  omega

/-- A draw leaves every register but VF, also where it faults. -/
theorem State.reg_drawRows (x0 y0 n : Nat) (q : RegNum) (hq : q ≠ vf) : ∀ (row : Nat) (s : State),
    (State.drawRows x0 y0 n row s).reg q = s.reg q := by
  induction n with
  | zero => intro row s; rfl
  | succ n ih =>
    intro row s
    rw [State.drawRows]
    cases s.memRead (s.effAddr row) with
    | none => exact State.raise_reg s _ q
    | some b =>
      exact (ih _ _).trans (by rw [State.reg_drawRow _ _ _ _ _ _ nodup_rowPixels, if_neg fun h => hq h.1])

theorem regsBut_execDrw {x y : RegNum} {n : Fin 16} {s t : State} (h : exec (.drw x y n) s = .next t) :
    RegsBut [15] s t := by
  intro q hq
  have hvf : q ≠ vf := fun he => hq (List.mem_singleton.mpr he)
  cases h
  rw [State.reg_drawRows _ _ _ _ hvf, State.reg_setFlag, if_neg hvf]

theorem reg_execLdVxMem_of_lt {x q : RegNum} {s t : State} (h : exec (.ldVxMem x) s = .next t) (hq : x.val < q.val) :
    t.reg q = s.reg q := by
  cases h
  exact State.reg_loadRegs_of_notMem _ q (fun hm => absurd (le_of_mem_regsUpTo hm) (Nat.not_le.mpr hq)) _ _

/-- Settles O47, by the operation each writer of V performs; the other instructions do not write V at all. -/
theorem eachInstructionHasItsRegisters : Obligations.EachInstructionHasItsRegisters := by
  intro i s t h
  cases i
  case ldImm | addImm | ldReg | orReg | andReg | xorReg | ldVxDt => cases h; exact regsBut_setReg s _ _
  case rnd x nn => cases h; exact regsBut_setReg s.drawByte.2 _ _
  case addReg | sub | subn | shr | shl => cases h; exact regsBut_setResultThenFlag s _ _ _
  case drw x y n => exact regsBut_execDrw h
  case ldVxMem x => exact fun r hr => reg_execLdVxMem_of_lt h hr
  all_goals exact regsBut_nil_of_notMem h (by simp [writtenBy])

/-! ## Faults of an instruction, and the engine state (R35) -/

/-- `t` has taken a fault where `s` had none yet, and one diagnostic request was signalled (R255, R286). -/
def Faulted (s t : State) : Prop := ∃ f, (∀ g, s.es ≠ .halted g) ∧ t.es = .halted f ∧ t.dumps = s.dumps + 1

/-- An operation that can do no more to `es` than take a fault. -/
def MayFault (s t : State) : Prop := t.es = s.es ∨ Faulted s t

theorem mayFault_raise (s : State) (f : FaultKind) : MayFault s (s.raise f) := by
  by_cases h : ∀ g, s.es ≠ .halted g
  · rw [State.raise_not_halted s f h]; exact .inr ⟨f, h, rfl, rfl⟩
  · simp only [not_forall, not_not] at h
    obtain ⟨g, hg⟩ := h
    rw [State.raise_halted s f g hg]; exact .inl rfl

theorem mayFault_storeBytes (bs : List Byte) : ∀ (a : Nat) (s : State), MayFault s (State.storeBytes bs a s) := by
  induction bs with
  | nil => intro a s; exact .inl rfl
  | cons b bs ih =>
    intro a s
    by_cases h : a < 4096
    · rw [State.storeBytes, State.memWrite_eq_some h]; exact ih (a + 1) (s.setByte a b)
    · rw [State.storeBytes, State.memWrite_eq_none (Nat.not_lt.mp h)]; exact mayFault_raise s _

theorem mayFault_loadRegs (rs : List RegNum) : ∀ (a : Nat) (s : State), MayFault s (State.loadRegs rs a s) := by
  induction rs with
  | nil => intro a s; exact .inl rfl
  | cons r rs ih =>
    intro a s
    rw [State.loadRegs]
    cases s.memRead a with
    | none => exact mayFault_raise s _
    | some b => exact ih (a + 1) (s.setReg r b)

theorem mayFault_drawRows (x0 y0 n : Nat) : ∀ (row : Nat) (s : State), MayFault s (State.drawRows x0 y0 n row s) := by
  induction n with
  | zero => intro row s; exact .inl rfl
  | succ n ih =>
    intro row s
    rw [State.drawRows]
    cases s.memRead (s.effAddr row) with
    | none => exact mayFault_raise s _
    | some b =>
      simp only
      rw [State.drawRow_eq]
      exact ih (row + 1) { s with fb := _, v := _ }

/-- What an instruction can do to `es`: LD Vx,K blocks the engine, every other one takes a fault at most. -/
theorem exec_es_cases {i : Instr} {s t : State} (h : exec i s = .next t) :
    (∃ x, i = .ldVxK x ∧ t.es = .blockedOnKey x) ∨ MayFault s t := by
  cases i
  case ldVxK x => cases h; exact .inl ⟨x, rfl, rfl⟩
  case ret =>
    obtain ⟨-, rfl⟩ | ⟨w, rest, -, rfl⟩ := exec_ret_cases h
    · exact .inr (mayFault_raise s _)
    · exact .inr (.inl rfl)
  case skp | sknp =>
    obtain rfl | ⟨held, rfl⟩ := exec_keySkip_cases (by simp) h
    · exact .inr (mayFault_raise s _)
    · exact .inr (.inl (State.skipIf_es s _))
  case ldB | ldMemVx => cases h; exact .inr (mayFault_storeBytes _ _ s)
  case ldVxMem => cases h; exact .inr (mayFault_loadRegs _ _ s)
  case drw => cases h; exact .inr (mayFault_drawRows _ _ _ _ (s.setFlag false))
  all_goals exact .inr (.inl (exec_keepsBut h .es (by simp [writtenBy])))

theorem keyNumber_cases (k : Int) : keyNumber k = none ∨ ∃ n : Fin 16, k = (n.val : Int) := by
  by_cases hk : k < 0 ∨ 15 < k
  · exact .inl (keyNumber_eq_none hk)
  · exact .inr ⟨⟨k.toNat, by omega⟩, (Int.toNat_of_nonneg (by omega)).symm⟩

/-- What a press can do: fault, or set one key and end the wait of a blocked engine. -/
theorem State.pressKey_es_cases (s : State) (k : Int) :
    MayFault s (s.pressKey k) ∨ (∃ r, s.es = .blockedOnKey r ∧ 0 ≤ k ∧ k < 16 ∧ (s.pressKey k).es = .running) := by
  obtain hk | ⟨n, rfl⟩ := keyNumber_cases k
  · left
    unfold State.pressKey
    rw [hk]
    exact mayFault_raise s _
  · by_cases hb : ∃ r, s.es = .blockedOnKey r
    · obtain ⟨r, hr⟩ := hb
      exact .inr ⟨r, hr, by omega, by omega, by rw [State.pressKey_of_blocked hr]; rfl⟩
    · rw [State.pressKey_of_not_blocked (not_exists.mp hb)]
      exact .inl (.inl rfl)

theorem State.releaseKey_mayFault (s : State) (k : Int) : MayFault s (s.releaseKey k) := by
  obtain hk | ⟨n, rfl⟩ := keyNumber_cases k
  · unfold State.releaseKey
    rw [hk]
    exact mayFault_raise s _
  · rw [State.releaseKey_natCast]
    exact .inl rfl

/-- A tick writes the accumulators and the agenda. -/
theorem execTick_eq {elapsed : Rat} {order : List Bool} {s t : State} (h : execTick elapsed order s = .next t) :
    t = { s with
      accI := remainder s.params.ips (s.accI + elapsed)
      accT := remainder Config.timerHz (s.accT + elapsed)
      agenda := t.agenda } := by
  unfold execTick at h
  split at h
  · cases h
  · cases h; rfl

/-- Settles O35, by the cases of a step: `es` changes in an instruction (`exec_es_cases`), a fault of the fetch or the
decoder, a key event or a reset. -/
theorem engineStateTransitionsAreComplete : Obligations.EngineStateTransitionsAreComplete := by
  intro s t h hne
  obtain ⟨i, hi, -, hrun, -, hexec⟩ | ⟨-, -, -, rfl⟩ | ⟨-, -, -, rfl⟩ | ⟨-, -, rfl⟩ | ⟨-, rfl⟩ | ⟨hreset, rfl⟩ |
    ⟨bytes, address, -, -, rfl⟩ | ⟨elapsed, order, -, -, htick⟩ | ⟨k, hk, rfl⟩ | ⟨k, -, rfl⟩ := step_cases h
  · obtain ⟨x, rfl, hx⟩ | hf := exec_es_cases hexec
    · exact .inl ⟨hrun, x, hi, hx⟩
    · exact .inr (.inr (.inl (hf.resolve_left hne)))
  · exact .inr (.inr (.inl ((mayFault_raise { s.begin with cip := s.pc } _).resolve_left hne)))
  · exact .inr (.inr (.inl ((mayFault_raise s.begin.fetched _).resolve_left hne)))
  · exact absurd rfl hne
  · exact absurd rfl hne
  · exact .inr (.inr (.inr ⟨hreset, rfl⟩))
  · exact absurd rfl hne
  · exact absurd (by rw [execTick_eq htick]; rfl) hne
  · obtain hf | ⟨r, hr, h0, h16, hes⟩ := s.begin.pressKey_es_cases k
    · exact .inr (.inr (.inl (hf.resolve_left hne)))
    · exact .inr (.inl ⟨r, k, hr, hk, h0, h16, hes⟩)
  · exact .inr (.inr (.inl ((s.begin.releaseKey_mayFault k).resolve_left hne)))

/-! ## Where `pc` goes (R28) -/

/-- An instruction that halts a running engine has not moved `pc`. -/
theorem exec_pc_of_halts {i : Instr} {s t : State} (h : exec i s = .next t) (hrun : s.es = .running)
    (hhalt : t.isHalted = true) : t.pc = s.pc := by
  have hes : t.es ≠ s.es := by
    intro he
    simp [State.isHalted, he, hrun] at hhalt
  by_cases hpc : Comp.pc ∈ writtenBy i
  · have hi := mem_writtenBy (c := .es) h hes
    cases i <;> simp [writtenBy] at hpc hi
    case ret =>
      obtain ⟨-, rfl⟩ | ⟨w, rest, -, rfl⟩ := exec_ret_cases h
      · exact State.raise_pc s _
      · exact absurd rfl hes
    case skp | sknp =>
      obtain rfl | ⟨held, rfl⟩ := exec_keySkip_cases (by simp) h
      · exact State.raise_pc s _
      · exact absurd (State.skipIf_es s _) hes
  · exact exec_keepsBut h .pc hpc

theorem State.isHalted_raise (s : State) (f : FaultKind) : (s.raise f).isHalted = true := by
  obtain ⟨g, hg⟩ := s.raise_es f
  simp [State.isHalted, hg]

theorem addrOperand_toNat (nnn : Addr12) : (addrOperand nnn).toNat = nnn.toNat := by
  have := nnn.isLt
  simp only [addrOperand, BitVec.toNat_ofNat]
  omega

theorem offsetTarget_toNat (nnn : Addr12) (b : Byte) : (offsetTarget nnn b).toNat = nnn.toNat + b.toNat := by
  have := nnn.isLt
  have := b.isLt
  simp only [offsetTarget, BitVec.toNat_ofNat]
  omega

/-- After a fetch below 4095 `pc` is 2 further: the sum does not wrap. -/
theorem State.fetched_pc_toNat {s : State} (h : s.pc.toNat + 1 < 4096) : s.fetched.pc.toNat = s.pc.toNat + 2 := by
  rw [State.fetched_pc]
  bv_omega

/-- A skip after a fetch below 4095: 4 past the fetch when the condition holds, else 2. -/
theorem State.skipIf_fetched_pc_toNat {s : State} (h : s.pc.toNat + 1 < 4096) (c : Bool) :
    (s.fetched.skipIf c).pc.toNat = s.pc.toNat + if c = true then 4 else 2 := by
  have hf := State.fetched_pc_toNat h
  rw [State.skipIf_pc]
  cases c
  · exact hf
  · simp only [if_true]
    bv_omega

/-- An engine step of a running engine with no instruction at `pc` halts it: at a word that does not decode `pc` has
advanced, at a fetch that faults it has not. -/
theorem step_of_no_currentInstr {s : State} (he : s.nextEvent = .engineStep) (hrun : s.es = .running)
    (hnone : s.currentInstr = none) :
    (4095 ≤ s.pc.toNat ∧ step s = .next s.begin.fetchFault) ∨
    (s.pc.toNat + 1 < 4096 ∧ step s = .next (s.begin.fetched.raise .invalidInstruction)) := by
  have hstep : step s = runInstruction s.begin :=
    (step_of_nextEvent he).trans (engineStep_of_running (s := s.begin) hrun)
  rw [hstep]
  by_cases hpc : 4095 ≤ s.pc.toNat
  · exact .inl ⟨hpc, runInstruction_of_none (s := s.begin) (State.fetchWord_eq_none hpc)⟩
  · have hw := State.fetchWord_eq_some (s := s) (by omega)
    cases hd : decodeWord (wordOfBytes (s.byte s.pc.toNat) (s.byte (s.pc.toNat + 1))) with
    | error e => exact .inr ⟨by omega, runInstruction_of_error (s := s.begin) hw hd⟩
    | ok i => simp [State.currentInstr, he, hrun, hw, hd, Except.toOption] at hnone

/-- Settles O12: the rule of each instruction that writes `pc`; the others leave it where the fetch put it. -/
theorem pcAfterEachInstruction : Obligations.PcAfterEachInstruction := by
  constructor
  · intro s he hrun hnone
    obtain ⟨hpc, hstep⟩ | ⟨hpc, hstep⟩ := step_of_no_currentInstr he hrun hnone
    · refine ⟨_, hstep, State.isHalted_raise _ _, ?_⟩
      rw [if_pos hpc, State.fetchFault, State.raise_pc]
      rfl
    · refine ⟨_, hstep, State.isHalted_raise _ _, ?_⟩
      rw [if_neg (by omega), State.raise_pc]
      exact State.fetched_pc_toNat (s := s.begin) hpc
  · intro s i hi
    obtain ⟨-, hrun, hlt, hstep⟩ := step_of_currentInstr hi
    obtain ⟨t, ht⟩ := exec_next i s.begin.fetched
    have hpc : s.begin.fetched.pc.toNat = s.pc.toNat + 2 := State.fetched_pc_toNat (s := s.begin) hlt
    have hskip := State.skipIf_fetched_pc_toNat (s := s.begin) hlt
    refine ⟨t, hstep.trans ht, fun hhalt => by rw [exec_pc_of_halts ht hrun hhalt, hpc], fun hnot => ?_⟩
    cases i
    case jp nnn => cases ht; exact addrOperand_toNat nnn
    case call nnn =>
      cases ht
      refine ⟨addrOperand_toNat nnn, ?_⟩
      rw [State.setPc_stack, State.push_stack, ← hpc, BitVec.ofNat_toNat, BitVec.setWidth_eq]
      rfl
    case jpOff x nnn =>
      cases ht
      have hb := (s.reg x).isLt
      have hn := nnn.isLt
      exact (offsetTarget_toNat nnn _).trans (Nat.mod_eq_of_lt (by omega)).symm
    case ret =>
      obtain ⟨-, rfl⟩ | ⟨w, rest, hw, rfl⟩ := exec_ret_cases ht
      · simp [State.isHalted_raise] at hnot
      · exact hw
    case seImm x nn => cases ht; simpa using hskip (s.reg x == nn)
    case sneImm x nn => cases ht; simpa using hskip (s.reg x != nn)
    case seReg x y => cases ht; simpa using hskip (s.reg x == s.reg y)
    case sneReg x y => cases ht; simpa using hskip (s.reg x != s.reg y)
    case skp x =>
      obtain rfl | ⟨k, hk, rfl⟩ := exec_skp_cases ht
      · simp [State.isHalted_raise] at hnot
      · exact ⟨k, hk, hskip (s.key k)⟩
    case sknp x =>
      obtain rfl | ⟨k, hk, rfl⟩ := exec_sknp_cases ht
      · simp [State.isHalted_raise] at hnot
      · refine ⟨k, hk, (hskip (!s.key k)).trans ?_⟩
        cases s.key k <;> rfl
    all_goals
      have hkept := exec_keepsBut ht .pc (by simp [writtenBy])
      exact (congrArg BitVec.toNat hkept).trans hpc

/-! ## `pc`, `cip` and the return addresses stay bounded (R29, R141) -/

/-- What an instruction can do to `pc` and the stack: leave both, skip, jump to `NNN` plus at most a byte, call, return. -/
theorem exec_flow_cases {i : Instr} {s t : State} (h : exec i s = .next t) :
    (t.stack = s.stack ∧ (t.pc = s.pc ∨ t.pc = s.pc + 2 ∨ t.pc.toNat ≤ 0x10FE)) ∨
    (t.stack = s.pc :: s.stack ∧ t.pc.toNat ≤ 0x10FE) ∨ s.stack = t.pc :: t.stack := by
  have hskip (c : Bool) : (s.skipIf c).pc = s.pc ∨ (s.skipIf c).pc = s.pc + 2 ∨ (s.skipIf c).pc.toNat ≤ 0x10FE := by
    cases c
    · exact .inl rfl
    · exact .inr (.inl rfl)
  cases i
  case jp nnn =>
    cases h
    have := nnn.isLt
    have hpc := addrOperand_toNat nnn
    exact .inl ⟨rfl, .inr (.inr (by rw [State.setPc_pc]; omega))⟩
  case jpOff x nnn =>
    cases h
    have := nnn.isLt
    have := (s.reg x).isLt
    have hpc := offsetTarget_toNat nnn (s.reg x)
    exact .inl ⟨rfl, .inr (.inr (by rw [State.setPc_pc]; omega))⟩
  case call nnn =>
    cases h
    have := nnn.isLt
    have hpc := addrOperand_toNat nnn
    exact .inr (.inl ⟨rfl, by rw [State.setPc_pc]; omega⟩)
  case ret =>
    obtain ⟨-, rfl⟩ | ⟨w, rest, hw, rfl⟩ := exec_ret_cases h
    · exact .inl ⟨State.raise_stack s _, .inl (State.raise_pc s _)⟩
    · exact .inr (.inr hw)
  case skp | sknp =>
    obtain rfl | ⟨held, rfl⟩ := exec_keySkip_cases (by simp) h
    · exact .inl ⟨State.raise_stack s _, .inl (State.raise_pc s _)⟩
    · exact .inl ⟨State.skipIf_stack s _, hskip _⟩
  case seImm | sneImm | seReg | sneReg => cases h; exact .inl ⟨State.skipIf_stack s _, hskip _⟩
  all_goals
    exact .inl ⟨exec_keepsBut h .stack (by simp [writtenBy]), .inl (exec_keepsBut h .pc (by simp [writtenBy]))⟩

/-- An instruction fetched below 4095 keeps the bound: `pc` is in 2..4096 when it executes, so a skip goes to 4098 at
most and a call pushes an address in 2..4096. -/
theorem exec_fetched_pcBounded {i : Instr} {s t : State} (hs : s.PcBounded) (hlt : s.pc.toNat + 1 < 4096)
    (h : exec i s.fetched = .next t) : t.PcBounded := by
  obtain ⟨-, -, hstack⟩ := hs
  have hpc := State.fetched_pc_toNat hlt
  have hskip := State.skipIf_fetched_pc_toNat hlt true
  obtain ⟨-, hcip, -⟩ := exec_keeps h
  have hcip' : t.cip.toNat ≤ 0x10FE := by rw [hcip, State.fetched_cip]; omega
  obtain ⟨hst, hp⟩ | ⟨hst, hp⟩ | hret := exec_flow_cases h
  · refine ⟨?_, hcip', by rw [hst]; exact hstack⟩
    obtain hp | hp | hp := hp
    · rw [hp]; omega
    · rw [State.skipIf_pc, if_pos rfl, if_pos rfl] at hskip
      rw [hp]; omega
    · exact hp
  · refine ⟨hp, hcip', ?_⟩
    rw [hst, List.forall_mem_cons]
    exact ⟨by omega, hstack⟩
  · rw [show s.stack = t.pc :: t.stack from hret, List.forall_mem_cons] at hstack
    obtain ⟨⟨-, hpop⟩, hrest⟩ := hstack
    exact ⟨by omega, hcip', hrest⟩

/-! ## The other events keep the bounded components -/

/-- A press writes V, `es`, the keys and the count of diagnostic requests. -/
theorem keepsBut_pressKey (s : State) (k : Int) : KeepsBut [.regs, .es, .keys, .dumps] s (s.pressKey k) := by
  obtain hk | ⟨n, rfl⟩ := keyNumber_cases k
  · unfold State.pressKey
    rw [hk]
    exact (keepsBut_raise s _).mono (by simp)
  · by_cases hb : ∃ r, s.es = .blockedOnKey r
    · obtain ⟨r, hr⟩ := hb
      rw [State.pressKey_of_blocked hr]
      intro c hc; cases c <;> simp_all [Comp.Kept]
    · rw [State.pressKey_of_not_blocked (not_exists.mp hb)]
      intro c hc; cases c <;> simp_all [Comp.Kept]

/-- A release writes the keys, and `es` with the count of diagnostic requests where it faults. -/
theorem keepsBut_releaseKey (s : State) (k : Int) : KeepsBut [.es, .keys, .dumps] s (s.releaseKey k) := by
  obtain hk | ⟨n, rfl⟩ := keyNumber_cases k
  · unfold State.releaseKey
    rw [hk]
    exact (keepsBut_raise s _).mono (by simp)
  · rw [State.releaseKey_natCast]
    intro c hc; cases c <;> simp_all [Comp.Kept]

theorem KeepsBut.pcBounded {cs : List Comp} {s t : State} (h : KeepsBut cs s t) (hs : s.PcBounded)
    (hcs : ∀ c ∈ [Comp.pc, .cip, .stack], c ∉ cs) : t.PcBounded := by
  have hpc : t.pc = s.pc := h .pc (hcs _ (by simp))
  have hcip : t.cip = s.cip := h .cip (hcs _ (by simp))
  have hstack : t.stack = s.stack := h .stack (hcs _ (by simp))
  unfold State.PcBounded
  rw [hpc, hcip, hstack]
  exact hs

theorem resetWith_pcBounded (p : Config.Params) : (State.resetWith p).PcBounded := by
  simp [State.PcBounded, State.resetWith]

/-- Settles O54, by the cases of a step; instructions are `exec_fetched_pcBounded`, and the other agents' events leave the
three components alone but for a load, whose address is at most 4096, and a reset. -/
theorem stepsKeepPcBounded : Obligations.StepsKeepPcBounded := by
  intro s t hs h
  have hbegin : s.begin.PcBounded := hs
  obtain ⟨i, -, -, -, hlt, hexec⟩ | ⟨-, -, -, rfl⟩ | ⟨-, -, hlt, rfl⟩ | ⟨-, -, rfl⟩ | ⟨-, rfl⟩ | ⟨-, rfl⟩ |
    ⟨bytes, address, -, hfit, rfl⟩ | ⟨elapsed, order, -, -, htick⟩ | ⟨k, -, rfl⟩ | ⟨k, -, rfl⟩ := step_cases h
  · exact exec_fetched_pcBounded hbegin hlt hexec
  · obtain ⟨hpc, -, hstack⟩ := hbegin
    exact (keepsBut_raise _ _).pcBounded (s := { s.begin with cip := s.pc }) ⟨hpc, hpc, hstack⟩ (by simp)
  · obtain ⟨hpc, -, hstack⟩ := hbegin
    have hpc' := State.fetched_pc_toNat (s := s.begin) hlt
    have hle : s.begin.fetched.pc.toNat ≤ 0x10FE := by
      rw [hpc', State.begin_pc]; omega
    exact (keepsBut_raise _ _).pcBounded (s := s.begin.fetched) ⟨hle, hpc, hstack⟩ (by simp)
  · exact hbegin
  · exact hbegin
  · exact resetWith_pcBounded s.params
  · obtain ⟨-, -, hstack⟩ := hbegin
    have haddr : address.toNat ≤ 0x10FE := by omega
    exact ⟨haddr, haddr, hstack⟩
  · rw [execTick_eq htick]
    exact hbegin
  · exact (keepsBut_pressKey s.begin k).pcBounded hbegin (by simp)
  · exact (keepsBut_releaseKey s.begin k).pcBounded hbegin (by simp)

/-! ## The accumulators stay below one period (R45, R46) -/

/-- What is left of an accumulator is non-negative and less than one period. -/
theorem remainder_bounds {rate acc : Rat} (hrate : 0 < rate) (hacc : 0 ≤ acc) :
    0 ≤ remainder rate acc ∧ remainder rate acc < 1 / rate := by
  obtain ⟨hle, hlt⟩ := (periods_eq_iff hrate hacc _).mp rfl
  rw [add_div] at hlt
  unfold remainder
  constructor
  · linarith
  · linarith

theorem execTick_accBounded {elapsed : Rat} {order : List Bool} {s t : State} (hs : s.AccBounded) (he : 0 ≤ elapsed)
    (h : execTick elapsed order s = .next t) : t.AccBounded := by
  obtain ⟨hI, -, hT, -⟩ := hs
  obtain ⟨hI0, hI1⟩ := remainder_bounds s.params.ips_pos (add_nonneg hI he)
  obtain ⟨hT0, hT1⟩ := remainder_bounds (rate := Config.timerHz) (by decide) (add_nonneg hT he)
  rw [execTick_eq h]
  exact ⟨hI0, hI1, hT0, hT1⟩

theorem KeepsBut.accBounded {cs : List Comp} {s t : State} (h : KeepsBut cs s t) (hs : s.AccBounded)
    (hcs : ∀ c ∈ [Comp.accI, .accT, .params], c ∉ cs) : t.AccBounded := by
  have hI : t.accI = s.accI := h .accI (hcs _ (by simp))
  have hT : t.accT = s.accT := h .accT (hcs _ (by simp))
  have hp : t.params = s.params := h .params (hcs _ (by simp))
  unfold State.AccBounded
  rw [hI, hT, hp]
  exact hs

theorem resetWith_accBounded (p : Config.Params) : (State.resetWith p).AccBounded :=
  ⟨le_refl 0, one_div_pos.mpr p.ips_pos, le_refl 0, by show (0 : Rat) < 1 / 60; norm_num⟩

/-- Settles O55, by the cases of a step: only a tick and a reset write the accumulators. -/
theorem stepsKeepAccumulatorsBelowOnePeriod : Obligations.StepsKeepAccumulatorsBelowOnePeriod := by
  intro s t hs h
  have hbegin : s.begin.AccBounded := hs
  obtain ⟨i, -, -, -, -, hexec⟩ | ⟨-, -, -, rfl⟩ | ⟨-, -, -, rfl⟩ | ⟨-, -, rfl⟩ | ⟨-, rfl⟩ | ⟨-, rfl⟩ |
    ⟨bytes, address, -, -, rfl⟩ | ⟨elapsed, order, -, he, htick⟩ | ⟨k, -, rfl⟩ | ⟨k, -, rfl⟩ := step_cases h
  · exact (exec_keepsBut hexec).accBounded hbegin (by cases i <;> simp [writtenBy])
  · exact (keepsBut_raise { s.begin with cip := s.pc } _).accBounded hbegin (by simp)
  · exact (keepsBut_raise s.begin.fetched _).accBounded hbegin (by simp)
  · exact hbegin
  · exact hbegin
  · exact resetWith_accBounded s.params
  · exact hbegin
  · exact execTick_accBounded hbegin he htick
  · exact (keepsBut_pressKey s.begin k).accBounded hbegin (by simp)
  · exact (keepsBut_releaseKey s.begin k).accBounded hbegin (by simp)

/-! ## After reset (R48) -/

/-- Settles O56. -/
theorem invariantsHoldAfterReset : Obligations.InvariantsHoldAfterReset :=
  fun p => ⟨rfl, resetWith_pcBounded p, resetWith_accBounded p⟩

theorem resetByte_font (p : Config.Params) (j : Fin 80) : resetByte p (p.fontBase.val + j.val) = p.fontData[j.val] := by
  have := j.isLt
  rw [resetByte, dif_pos (by omega)]
  simp only [Nat.add_sub_cancel_left]

theorem resetByte_outside (p : Config.Params) (a : Nat) (h : a < p.fontBase.val ∨ p.fontBase.val + 80 ≤ a) :
    resetByte p a = 0 := by
  rw [resetByte, dif_neg (by omega)]

theorem resetWith_reg (p : Config.Params) (r : RegNum) : (State.resetWith p).reg r = 0 := by
  simp [State.reg, State.resetWith]

theorem resetWith_pixel (p : Config.Params) (r c : Nat) : (State.resetWith p).pixel r c = false :=
  State.pixel_clearDisplay (State.resetWith p) r c

theorem resetWith_key (p : Config.Params) (k : Fin 16) : (State.resetWith p).key k = false := by
  simp [State.key, State.resetWith]

/-- Settles O44: the memory after reset is the empty list, which reads as the font and zeros. -/
theorem initialStateHasTheResetValues : Obligations.InitialStateHasTheResetValues := by
  refine ⟨rfl, ?_⟩
  rintro p t rfl
  exact ⟨resetWith_reg p, rfl, rfl, rfl, rfl, rfl, rfl, rfl, resetWith_pixel p, resetWith_key p, rfl, rfl,
    resetByte_font p, resetByte_outside p⟩

/-! ## The components no instruction reads (R34, R44 to R47)

Executing commutes with setting `cip`, both accumulators and ST beforehand: operation by operation, then for `exec`. -/

/-- The state with the four components no instruction reads set to the given values. -/
def State.withHidden (s : State) (c : Word) (a b : Rat) (q : Byte) : State :=
  { s with cip := c, accI := a, accT := b, st := q }

section
variable (c : Word) (a b : Rat) (q : Byte)

theorem State.withHidden_sameBut (s : State) : SameBut [.cip, .accI, .accT, .st] s (s.withHidden c a b q) := by
  refine KeepsBut.sameBut (fun comp hc => ?_) rfl
  cases comp <;> simp_all [Comp.Kept, State.withHidden]

theorem raise_withHidden (f : FaultKind) (s : State) :
    (s.withHidden c a b q).raise f = (s.raise f).withHidden c a b q := by
  cases hs : s.es with
  | halted g => rw [State.raise_halted s f g hs]; exact State.raise_halted _ f g hs
  | running | blockedOnKey => simp [State.raise, State.withHidden, hs]

theorem skipIf_withHidden (d : Bool) (s : State) :
    (s.withHidden c a b q).skipIf d = (s.skipIf d).withHidden c a b q := by
  cases d <;> rfl

theorem storeBytes_withHidden (bs : List Byte) : ∀ (addr : Nat) (s : State),
    State.storeBytes bs addr (s.withHidden c a b q) = (State.storeBytes bs addr s).withHidden c a b q := by
  induction bs with
  | nil => intro addr s; rfl
  | cons d bs ih =>
    intro addr s
    by_cases h : addr < 4096
    · rw [State.storeBytes, State.storeBytes, State.memWrite_eq_some h, State.memWrite_eq_some h]
      exact ih (addr + 1) (s.setByte addr d)
    · rw [State.storeBytes, State.storeBytes, State.memWrite_eq_none (Nat.not_lt.mp h),
        State.memWrite_eq_none (Nat.not_lt.mp h)]
      exact raise_withHidden c a b q _ s

theorem loadRegs_withHidden (rs : List RegNum) : ∀ (addr : Nat) (s : State),
    State.loadRegs rs addr (s.withHidden c a b q) = (State.loadRegs rs addr s).withHidden c a b q := by
  induction rs with
  | nil => intro addr s; rfl
  | cons r rs ih =>
    intro addr s
    by_cases h : addr < 4096
    · rw [State.loadRegs, State.loadRegs, State.memRead_eq_some h, State.memRead_eq_some h]
      exact ih (addr + 1) (s.setReg r (s.byte addr))
    · rw [State.loadRegs, State.loadRegs, State.memRead_eq_none (Nat.not_lt.mp h),
        State.memRead_eq_none (Nat.not_lt.mp h)]
      exact raise_withHidden c a b q _ s

theorem drawPixel_withHidden (r col : Nat) (bit : Bool) (s : State) :
    (s.withHidden c a b q).drawPixel r col bit = (s.drawPixel r col bit).withHidden c a b q := by
  have hpix : (s.withHidden c a b q).pixel r col = s.pixel r col := rfl
  have hset (d : Bool) : (s.withHidden c a b q).setPixel r col d = (s.setPixel r col d).withHidden c a b q := by
    unfold State.setPixel; split <;> rfl
  unfold State.drawPixel
  simp only [hpix, hset]
  split
  · split <;> rfl
  · rfl

theorem drawRow_withHidden (d : Byte) (r x0 : Nat) (ks : List Nat) : ∀ s : State,
    State.drawRow d r x0 ks (s.withHidden c a b q) = (State.drawRow d r x0 ks s).withHidden c a b q := by
  induction ks with
  | nil => intro s; rfl
  | cons k ks ih => intro s; rw [State.drawRow, State.drawRow, drawPixel_withHidden, ih]

theorem drawRows_withHidden (x0 y0 n : Nat) : ∀ (row : Nat) (s : State),
    State.drawRows x0 y0 n row (s.withHidden c a b q) = (State.drawRows x0 y0 n row s).withHidden c a b q := by
  induction n with
  | zero => intro row s; rfl
  | succ n ih =>
    intro row s
    have hread : (s.withHidden c a b q).memRead ((s.withHidden c a b q).effAddr row) = s.memRead (s.effAddr row) := rfl
    rw [State.drawRows, State.drawRows, hread]
    cases s.memRead (s.effAddr row) with
    | none => exact raise_withHidden c a b q _ s
    | some d => simp only [drawRow_withHidden, ih]

/-- An instruction does the same whatever the four components hold, and LD ST,Vx overwrites one of them. -/
theorem exec_withHidden {i : Instr} {s t : State} (h : exec i s = .next t) :
    ∃ q', exec i (s.withHidden c a b q) = .next (t.withHidden c a b q') := by
  cases i
  case ldStVx x => cases h; exact ⟨s.reg x, rfl⟩
  case ret =>
    refine ⟨q, ?_⟩
    obtain ⟨hs, rfl⟩ | ⟨w, rest, hs, rfl⟩ := exec_ret_cases h
    · rw [← raise_withHidden]
      simp only [exec, execRet, show (s.withHidden c a b q).stack = [] from hs]
    · simp only [exec, execRet, show (s.withHidden c a b q).stack = w :: rest from hs]
      rfl
  case skp x | sknp x =>
    refine ⟨q, ?_⟩
    have hreg : (s.withHidden c a b q).reg x = s.reg x := rfl
    simp only [exec, execSkp, execSknp, hreg] at h ⊢
    obtain hk | ⟨k, -, hk⟩ := keyOperand_cases (s.reg x)
    · rw [hk] at h ⊢; cases h; simp only [raise_withHidden]
    · rw [hk] at h ⊢; cases h; exact congrArg _ (skipIf_withHidden c a b q _ s)
  case seImm | sneImm | seReg | sneReg => cases h; exact ⟨q, congrArg _ (skipIf_withHidden c a b q _ s)⟩
  case ldB | ldMemVx => cases h; exact ⟨q, congrArg _ (storeBytes_withHidden c a b q _ _ s)⟩
  case ldVxMem => cases h; exact ⟨q, congrArg _ (loadRegs_withHidden c a b q _ _ s)⟩
  case drw => cases h; exact ⟨q, congrArg _ (drawRows_withHidden c a b q _ _ _ _ (s.setFlag false))⟩
  all_goals cases h; exact ⟨q, rfl⟩

end

/-- Settles O48: the end states differ in what was hidden, and in ST. -/
theorem hiddenStateIsNotReadByInstructions : Obligations.HiddenStateIsNotReadByInstructions := by
  intro i s t c a b q h
  obtain ⟨q', hq'⟩ := exec_withHidden c a b q h
  exact ⟨_, hq', t.withHidden_sameBut c a b q'⟩

end Sys2Proof.Machine

/-! # Proofs: memory (20_memory.md)

The canonical form of the memory list: every step keeps it (O53), and it is determined by what it reads as (O52). A store
is seen by the next fetch (O50). -/

namespace Sys2Proof.Machine

/-! ## Every step keeps the canonical form (R60, R66) -/

/-- A store writes only below 4096, also where it faults. -/
theorem memCanonical_storeBytes (bs : List Byte) : ∀ (a : Nat) (s : State), s.MemCanonical →
    (State.storeBytes bs a s).MemCanonical := by
  induction bs with
  | nil => intro a s hs; exact hs
  | cons b bs ih =>
    intro a s hs
    by_cases h : a < 4096
    · rw [State.storeBytes, State.memWrite_eq_some h]
      exact ih (a + 1) (s.setByte a b) (Memory.wf_write s.params hs h b)
    · rw [State.storeBytes, State.memWrite_eq_none (Nat.not_lt.mp h)]
      unfold State.MemCanonical
      rw [State.raise_params, State.raise_mem]
      exact hs

theorem KeepsBut.memCanonical {cs : List Comp} {s t : State} (h : KeepsBut cs s t) (hs : s.MemCanonical)
    (hcs : ∀ c ∈ [Comp.mem, .params], c ∉ cs) : t.MemCanonical := by
  have hmem : t.mem = s.mem := h .mem (hcs _ (by simp))
  have hparams : t.params = s.params := h .params (hcs _ (by simp))
  unfold State.MemCanonical
  rw [hmem, hparams]
  exact hs

/-- The two instructions that write memory are stores; the others keep it. -/
theorem exec_memCanonical {i : Instr} {s t : State} (hs : s.MemCanonical) (h : exec i s = .next t) :
    t.MemCanonical := by
  cases i
  case ldB | ldMemVx => cases h; exact memCanonical_storeBytes _ _ s hs
  all_goals exact (exec_keepsBut h).memCanonical hs (by simp [writtenBy])

theorem resetWith_memCanonical (p : Config.Params) : (State.resetWith p).MemCanonical := rfl

/-- Settles O53, by the cases of a step: instructions are `exec_memCanonical`, a load that fits writes below 4096 only, a
reset empties the list, and no other event writes memory. -/
theorem stepsKeepMemoryCanonical : Obligations.StepsKeepMemoryCanonical := by
  intro s t hs h
  have hbegin : s.begin.MemCanonical := hs
  obtain ⟨i, -, -, -, -, hexec⟩ | ⟨-, -, -, rfl⟩ | ⟨-, -, -, rfl⟩ | ⟨-, -, rfl⟩ | ⟨-, rfl⟩ | ⟨-, rfl⟩ |
    ⟨bytes, address, -, hfit, rfl⟩ | ⟨elapsed, order, -, -, htick⟩ | ⟨k, -, rfl⟩ | ⟨k, -, rfl⟩ := step_cases h
  · exact exec_memCanonical (s := s.begin.fetched) hbegin hexec
  · exact (keepsBut_raise { s.begin with cip := s.pc } _).memCanonical hbegin (by simp)
  · exact (keepsBut_raise s.begin.fetched _).memCanonical hbegin (by simp)
  · exact hbegin
  · exact hbegin
  · exact resetWith_memCanonical s.params
  · exact Memory.wf_writeList s.params bytes s.mem address.toNat hs hfit
  · rw [execTick_eq htick]
    exact hbegin
  · exact (keepsBut_pressKey s.begin k).memCanonical hbegin (by simp)
  · exact (keepsBut_releaseKey s.begin k).memCanonical hbegin (by simp)

/-! ## A canonical list is determined by what it reads as (R60) -/

section
variable (p : Config.Params)

theorem Memory.read_cons (k a : Nat) (b : Byte) (m : Memory) :
    Memory.read p ((k, b) :: m) a = if k = a then b else Memory.read p m a := by
  unfold Memory.read
  rw [Memory.lookup]
  split <;> rfl

theorem Memory.wfFrom_cons {lo k : Nat} {b : Byte} {m : Memory} :
    Memory.wfFrom p lo ((k, b) :: m) = true ↔
      lo ≤ k ∧ k < 4096 ∧ b ≠ resetByte p k ∧ Memory.wfFrom p (k + 1) m = true := by
  simp only [Memory.wfFrom, Bool.and_eq_true, decide_eq_true_eq, and_assoc]

/-- An address below all entries reads as reset left it. -/
theorem Memory.read_of_lt (m : Memory) : ∀ {lo a : Nat}, Memory.wfFrom p lo m = true → a < lo →
    Memory.read p m a = resetByte p a := by
  induction m with
  | nil => intro lo a _ _; rfl
  | cons e m ih =>
    obtain ⟨k, b⟩ := e
    intro lo a hm ha
    obtain ⟨hk, -, -, htail⟩ := (Memory.wfFrom_cons p).mp hm
    rw [Memory.read_cons, if_neg (by omega)]
    exact ih htail (by omega)

/-- The first entry shows: where it stands, no list whose entries all lie above reads the same. -/
theorem Memory.read_head_ne {lo k : Nat} {b : Byte} {m n : Memory} (hm : Memory.wfFrom p lo ((k, b) :: m) = true)
    (hn : Memory.wfFrom p (k + 1) n = true) : Memory.read p ((k, b) :: m) k ≠ Memory.read p n k := by
  obtain ⟨-, -, hb, -⟩ := (Memory.wfFrom_cons p).mp hm
  rw [Memory.read_cons, if_pos rfl, Memory.read_of_lt p n hn (Nat.lt_succ_self k)]
  exact hb

/-- Lists with the same first address that read alike have the same first byte and tails that read alike. -/
theorem Memory.read_alike_cons {k : Nat} {b c : Byte} {m n : Memory} (hm : Memory.wfFrom p (k + 1) m = true)
    (hn : Memory.wfFrom p (k + 1) n = true)
    (h : ∀ a, Memory.read p ((k, b) :: m) a = Memory.read p ((k, c) :: n) a) :
    b = c ∧ ∀ a, Memory.read p m a = Memory.read p n a := by
  constructor
  · simpa [Memory.read_cons] using h k
  · intro a
    by_cases ha : k = a
    · rw [Memory.read_of_lt p m hm (by omega), Memory.read_of_lt p n hn (by omega)]
    · simpa [Memory.read_cons, ha] using h a

/-- Canonical lists from the same address on that read alike are equal: neither can have its first entry before the
other's. -/
theorem Memory.eq_of_read_alike (m : Memory) : ∀ (lo : Nat) (n : Memory), Memory.wfFrom p lo m = true →
    Memory.wfFrom p lo n = true → (∀ a, Memory.read p m a = Memory.read p n a) → m = n := by
  induction m with
  | nil =>
    intro lo n _ hn h
    cases n with
    | nil => rfl
    | cons e n => exact absurd (h e.1).symm (Memory.read_head_ne p hn rfl)
  | cons e m ih =>
    obtain ⟨k, b⟩ := e
    intro lo n hm hn h
    cases n with
    | nil => exact absurd (h k) (Memory.read_head_ne p hm rfl)
    | cons f n =>
      obtain ⟨l, c⟩ := f
      obtain ⟨-, hk, hb, hm'⟩ := (Memory.wfFrom_cons p).mp hm
      obtain ⟨-, hl, hc, hn'⟩ := (Memory.wfFrom_cons p).mp hn
      obtain hlt | rfl | hgt := Nat.lt_trichotomy k l
      · exact absurd (h k) (Memory.read_head_ne p hm ((Memory.wfFrom_cons p).mpr ⟨hlt, hl, hc, hn'⟩))
      · obtain ⟨rfl, htails⟩ := Memory.read_alike_cons p hm' hn' h
        rw [ih (k + 1) n hm' hn' htails]
      · exact absurd (h l).symm (Memory.read_head_ne p hn ((Memory.wfFrom_cons p).mpr ⟨hgt, hk, hb, hm'⟩))

end

/-- Settles O52: the canonical form is the one from address 0 on. -/
theorem canonicalMemoriesThatReadAlikeAreEqual : Obligations.CanonicalMemoriesThatReadAlikeAreEqual :=
  fun p m n hm hn h => Memory.eq_of_read_alike p m 0 n hm hn h

/-! ## A store is seen by the next fetch (R77) -/

/-- LD [I],Vx whose bytes all fit writes memory only. -/
theorem exec_ldMemVx_of_fits {x : RegNum} {s t : State} (hfit : s.i.toNat + x.val < 4096)
    (h : exec (.ldMemVx x) s = .next t) :
    t = { s with mem := Memory.writeList s.params s.mem s.i.toNat ((regsUpTo x).map s.reg) } := by
  cases h
  exact State.storeBytes_fits _ _ s (by rw [List.length_map, length_regsUpTo, State.effAddr]; omega)

/-- After LD [I],Vx whose bytes all fit, V`r` stands at I + r, for each r up to X (R195). -/
theorem byte_exec_ldMemVx {x r : RegNum} {s t : State} (hfit : s.i.toNat + x.val < 4096)
    (h : exec (.ldMemVx x) s = .next t) (hr : r.val ≤ x.val) : t.byte (s.i.toNat + r.val) = s.reg r := by
  have hin : s.i.toNat ≤ s.i.toNat + r.val ∧
      s.i.toNat + r.val < s.i.toNat + ((regsUpTo x).map s.reg).length := by
    rw [List.length_map, length_regsUpTo]; omega
  rw [exec_ldMemVx_of_fits hfit h]
  refine (Memory.read_writeList _ _ _ _ _).trans ?_
  rw [if_pos hin, Nat.add_sub_cancel_left, getD_regsUpTo s x r hr]

/-- The engine step of a running engine whose two bytes at `pc` form the word of `j` executes `j`. -/
theorem step_of_decodeWord {s : State} {j : Instr} (he : s.nextEvent = .engineStep) (hrun : s.es = .running)
    (hpc : s.pc.toNat + 1 < 4096)
    (hj : decodeWord (wordOfBytes (s.byte s.pc.toNat) (s.byte (s.pc.toNat + 1))) = .ok j) :
    step s = exec j s.begin.fetched :=
  calc step s = engineStep s.begin := step_of_nextEvent he
    _ = runInstruction s.begin := engineStep_of_running (s := s.begin) hrun
    _ = exec j s.begin.fetched := runInstruction_of_ok (s := s.begin) (State.fetchWord_eq_some hpc) hj

theorem State.begin_fetched_eq (s : State) :
    s.begin.fetched = { s with cip := s.pc, pc := BitVec.ofNat 16 (s.pc.toNat + 2), agenda := s.agenda.tail } := by
  have hpc : s.pc + 2 = BitVec.ofNat 16 (s.pc.toNat + 2) := by
    rw [BitVec.ofNat_add, BitVec.ofNat_toNat, BitVec.setWidth_eq]; rfl
  rw [← hpc]
  rfl

/-- Settles O50: the store leaves `pc`, `es` and the agenda, and the bytes it wrote are the ones the next step fetches. -/
theorem storeIsSeenByTheNextFetch : Obligations.StoreIsSeenByTheNextFetch := by
  intro x s t j hx hrun he hi hfit h hj
  rw [← hi] at hfit
  have hb0 : t.byte s.i.toNat = s.reg 0 := byte_exec_ldMemVx (r := 0) hfit h (Nat.zero_le _)
  have hb1 : t.byte (s.i.toNat + 1) = s.reg 1 := byte_exec_ldMemVx (r := 1) hfit h hx
  have ht := exec_ldMemVx_of_fits hfit h
  have hpc : t.pc = s.i := by rw [ht, hi]
  have hes : t.es = .running := by rw [ht]; exact hrun
  have hnext : t.nextEvent = .engineStep := by rw [ht]; exact he
  rw [← State.begin_fetched_eq]
  refine step_of_decodeWord hnext hes (by rw [hpc]; omega) ?_
  rw [hpc, hb0, hb1]
  exact hj

end Sys2Proof.Machine

/-! # Proofs: the encoding (30_encoding.md)

The fields of a word (O2); the fields of an encoded word, from which decoding gives the instruction back (O3); what
each answer of the decoder says of the word, an instruction (O4) or a class of R97 (O6); the rows of R96 by mask and
match (O5); words of the spec's patterns (O1). -/

namespace Sys2Proof

/-! ## The fields of a word (R92) -/

section
variable (w : Word)

@[simp] theorem fieldOpcode_val : (fieldOpcode w).val = w.toNat / 4096 := rfl

@[simp] theorem fieldX_val : (fieldX w).val = w.toNat / 256 % 16 := rfl

@[simp] theorem fieldY_val : (fieldY w).val = w.toNat / 16 % 16 := rfl

@[simp] theorem fieldN_val : (fieldN w).val = w.toNat % 16 := rfl

@[simp] theorem fieldNN_toNat : (fieldNN w).toNat = w.toNat % 256 := by
  rw [fieldNN, BitVec.toNat_ofNat, Nat.mod_mod]

@[simp] theorem fieldNNN_toNat : (fieldNNN w).toNat = w.toNat % 4096 := by
  rw [fieldNNN, BitVec.toNat_ofNat, Nat.mod_mod]

theorem fieldN_eq_iff (k : Fin 16) : fieldN w = k ↔ w.toNat % 16 = k.val := Fin.ext_iff

theorem fieldNN_eq_iff (b : Byte) : fieldNN w = b ↔ w.toNat % 256 = b.toNat := by
  rw [← BitVec.toNat_inj, fieldNN_toNat]

theorem fieldNNN_eq_iff (a : Addr12) : fieldNNN w = a ↔ w.toNat % 4096 = a.toNat := by
  rw [← BitVec.toNat_inj, fieldNNN_toNat]

end

/-- Settles O2: the overlaps are arithmetic over the value of each field. -/
theorem fieldsAreTheDocumentedBits : Obligations.FieldsAreTheDocumentedBits := by
  intro w
  simp only [fieldOpcode_val, fieldX_val, fieldY_val, fieldN_val, fieldNN_toNat, fieldNNN_toNat, true_and]
  omega

/-! ## The two bytes of a word (R64, R91) -/

theorem wordOfBytes_highByte_lowByte (w : Word) : wordOfBytes (highByte w) (lowByte w) = w := by
  apply BitVec.eq_of_toNat_eq
  simp only [wordOfBytes, highByte, lowByte, BitVec.toNat_ofNat]
  omega

theorem decode_highByte_lowByte {w : Word} {i : Instr} (h : decodeWord w = .ok i) (rest : List Byte) :
    decode (highByte w :: lowByte w :: rest) = .ok (i, rest) := by
  rw [decode, wordOfBytes_highByte_lowByte, h]

/-! ## The dispatch, an equation for each opcode (R95) -/

section
variable {w : Word}

theorem decodeWord_opcode0 (h : fieldOpcode w = 0x0) : decodeWord w = decodeGroup0 w := by simp only [decodeWord, h]

theorem decodeWord_opcode1 (h : fieldOpcode w = 0x1) : decodeWord w = .ok (.jp (fieldNNN w)) := by
  simp only [decodeWord, h]

theorem decodeWord_opcode2 (h : fieldOpcode w = 0x2) : decodeWord w = .ok (.call (fieldNNN w)) := by
  simp only [decodeWord, h]

theorem decodeWord_opcode3 (h : fieldOpcode w = 0x3) : decodeWord w = .ok (.seImm (fieldX w) (fieldNN w)) := by
  simp only [decodeWord, h]

theorem decodeWord_opcode4 (h : fieldOpcode w = 0x4) : decodeWord w = .ok (.sneImm (fieldX w) (fieldNN w)) := by
  simp only [decodeWord, h]

theorem decodeWord_opcode5 (h : fieldOpcode w = 0x5) :
    decodeWord w = if fieldN w = 0 then .ok (.seReg (fieldX w) (fieldY w)) else .error .group5 := by
  simp only [decodeWord, h]

theorem decodeWord_opcode6 (h : fieldOpcode w = 0x6) : decodeWord w = .ok (.ldImm (fieldX w) (fieldNN w)) := by
  simp only [decodeWord, h]

theorem decodeWord_opcode7 (h : fieldOpcode w = 0x7) : decodeWord w = .ok (.addImm (fieldX w) (fieldNN w)) := by
  simp only [decodeWord, h]

theorem decodeWord_opcode8 (h : fieldOpcode w = 0x8) : decodeWord w = decodeGroup8 w := by simp only [decodeWord, h]

theorem decodeWord_opcode9 (h : fieldOpcode w = 0x9) :
    decodeWord w = if fieldN w = 0 then .ok (.sneReg (fieldX w) (fieldY w)) else .error .group9 := by
  simp only [decodeWord, h]

theorem decodeWord_opcodeA (h : fieldOpcode w = 0xA) : decodeWord w = .ok (.ldI (fieldNNN w)) := by
  simp only [decodeWord, h]

theorem decodeWord_opcodeB (h : fieldOpcode w = 0xB) : decodeWord w = .ok (.jpOff (fieldX w) (fieldNNN w)) := by
  simp only [decodeWord, h]

theorem decodeWord_opcodeC (h : fieldOpcode w = 0xC) : decodeWord w = .ok (.rnd (fieldX w) (fieldNN w)) := by
  simp only [decodeWord, h]

theorem decodeWord_opcodeD (h : fieldOpcode w = 0xD) : decodeWord w = .ok (.drw (fieldX w) (fieldY w) (fieldN w)) := by
  simp only [decodeWord, h]

theorem decodeWord_opcodeE (h : fieldOpcode w = 0xE) : decodeWord w = decodeGroupE w := by simp only [decodeWord, h]

theorem decodeWord_opcodeF (h : fieldOpcode w = 0xF) : decodeWord w = decodeGroupF w := by simp only [decodeWord, h]

end

/-! ## The fields of an encoded word (R93) -/

section
variable {m : Nat} (x y : RegNum)

@[simp] theorem fieldNNN_encodeNNN (nnn : Addr12) (hm : m % 4096 = 0) : fieldNNN (encodeNNN m nnn) = nnn := by
  rw [fieldNNN_eq_iff, encodeNNN, BitVec.toNat_ofNat]
  omega

/-- The register number of `BXNN` is the top nibble of NNN (R94). -/
theorem fieldX_encodeNNN (nnn : Addr12) (hm : m % 4096 = 0) (hx : x.val = nnn.toNat / 256) :
    fieldX (encodeNNN m nnn) = x := by
  apply Fin.ext
  rw [fieldX_val, encodeNNN, BitVec.toNat_ofNat]
  omega

@[simp] theorem fieldX_encodeXNN (nn : Byte) (hm : m % 4096 = 0) : fieldX (encodeXNN m x nn) = x := by
  apply Fin.ext
  rw [fieldX_val, encodeXNN, BitVec.toNat_ofNat]
  omega

@[simp] theorem fieldNN_encodeXNN (nn : Byte) (hm : m % 4096 = 0) : fieldNN (encodeXNN m x nn) = nn := by
  rw [fieldNN_eq_iff, encodeXNN, BitVec.toNat_ofNat]
  omega

@[simp] theorem fieldX_encodeXYN {n : Nat} (hm : m % 4096 + n < 16) : fieldX (encodeXYN m x y n) = x := by
  apply Fin.ext
  rw [fieldX_val, encodeXYN, BitVec.toNat_ofNat]
  omega

@[simp] theorem fieldY_encodeXYN {n : Nat} (hm : m % 4096 + n < 16) : fieldY (encodeXYN m x y n) = y := by
  apply Fin.ext
  rw [fieldY_val, encodeXYN, BitVec.toNat_ofNat]
  omega

theorem fieldN_encodeXYN (n : Nat) : fieldN (encodeXYN m x y n) = Fin.ofNat 16 (m + n) := by
  apply Fin.ext
  rw [fieldN_val, encodeXYN, BitVec.toNat_ofNat, Fin.val_ofNat]
  omega

@[simp] theorem fieldN_encodeXYN_val (n : Fin 16) (hm : m % 16 = 0) : fieldN (encodeXYN m x y n.val) = n := by
  apply Fin.ext
  rw [fieldN_val, encodeXYN, BitVec.toNat_ofNat]
  omega

@[simp] theorem fieldX_encodeX (hm : m % 4096 < 256) : fieldX (encodeX m x) = x := by
  apply Fin.ext
  rw [fieldX_val, encodeX, BitVec.toNat_ofNat]
  omega

@[simp] theorem fieldNN_encodeX : fieldNN (encodeX m x) = BitVec.ofNat 8 m := by
  rw [fieldNN_eq_iff, encodeX, BitVec.toNat_ofNat, BitVec.toNat_ofNat]
  omega

end

/-! ## Decoding what was encoded -/

theorem fieldOpcode_encode : ∀ i : Instr, fieldOpcode (encode i) = fieldOpcode i.matchWord
  | .cls => Laws.OpcodeNibble.cls
  | .ret => Laws.OpcodeNibble.ret
  | .jp nnn => Laws.OpcodeNibble.jp nnn
  | .call nnn => Laws.OpcodeNibble.call nnn
  | .seImm x nn => Laws.OpcodeNibble.seImm x nn
  | .sneImm x nn => Laws.OpcodeNibble.sneImm x nn
  | .seReg x y => Laws.OpcodeNibble.seReg x y
  | .ldImm x nn => Laws.OpcodeNibble.ldImm x nn
  | .addImm x nn => Laws.OpcodeNibble.addImm x nn
  | .ldReg x y => Laws.OpcodeNibble.ldReg x y
  | .orReg x y => Laws.OpcodeNibble.orReg x y
  | .andReg x y => Laws.OpcodeNibble.andReg x y
  | .xorReg x y => Laws.OpcodeNibble.xorReg x y
  | .addReg x y => Laws.OpcodeNibble.addReg x y
  | .sub x y => Laws.OpcodeNibble.sub x y
  | .shr x y => Laws.OpcodeNibble.shr x y
  | .subn x y => Laws.OpcodeNibble.subn x y
  | .shl x y => Laws.OpcodeNibble.shl x y
  | .sneReg x y => Laws.OpcodeNibble.sneReg x y
  | .ldI nnn => Laws.OpcodeNibble.ldI nnn
  | .jpOff x nnn => Laws.OpcodeNibble.jpOff x nnn
  | .rnd x nn => Laws.OpcodeNibble.rnd x nn
  | .drw x y n => Laws.OpcodeNibble.drw x y n
  | .skp x => Laws.OpcodeNibble.skp x
  | .sknp x => Laws.OpcodeNibble.sknp x
  | .ldVxDt x => Laws.OpcodeNibble.ldVxDt x
  | .ldVxK x => Laws.OpcodeNibble.ldVxK x
  | .ldDtVx x => Laws.OpcodeNibble.ldDtVx x
  | .ldStVx x => Laws.OpcodeNibble.ldStVx x
  | .addI x => Laws.OpcodeNibble.addI x
  | .ldF x => Laws.OpcodeNibble.ldF x
  | .ldB x => Laws.OpcodeNibble.ldB x
  | .ldMemVx x => Laws.OpcodeNibble.ldMemVx x
  | .ldVxMem x => Laws.OpcodeNibble.ldVxMem x

/-- The opcode leads to the row's group, the selecting field to the row, and the operand fields are the operands. -/
theorem decodeWord_encode {i : Instr} (hwf : i.wf = true) : decodeWord (encode i) = .ok i := by
  have hop := fieldOpcode_encode i
  cases i <;> simp only [Instr.matchWord] at hop
  case cls | ret => rfl
  case jp => rw [decodeWord_opcode1 hop]; simp [encode]
  case call => rw [decodeWord_opcode2 hop]; simp [encode]
  case seImm => rw [decodeWord_opcode3 hop]; simp [encode]
  case sneImm => rw [decodeWord_opcode4 hop]; simp [encode]
  case seReg => rw [decodeWord_opcode5 hop]; simp [encode, fieldN_encodeXYN]
  case ldImm => rw [decodeWord_opcode6 hop]; simp [encode]
  case addImm => rw [decodeWord_opcode7 hop]; simp [encode]
  case ldReg | orReg | andReg | xorReg | addReg | sub | shr | subn | shl =>
    rw [decodeWord_opcode8 hop]; simp [encode, decodeGroup8, fieldN_encodeXYN]
  case sneReg => rw [decodeWord_opcode9 hop]; simp [encode, fieldN_encodeXYN]
  case ldI => rw [decodeWord_opcodeA hop]; simp [encode]
  case jpOff x nnn =>
    have hx : x.val = nnn.toNat / 256 := beq_iff_eq.mp hwf
    rw [decodeWord_opcodeB hop]; simp [encode, fieldX_encodeNNN x nnn _ hx]
  case rnd => rw [decodeWord_opcodeC hop]; simp [encode]
  case drw => rw [decodeWord_opcodeD hop]; simp [encode]
  case skp | sknp => rw [decodeWord_opcodeE hop]; simp [encode, decodeGroupE]
  case ldVxDt | ldVxK | ldDtVx | ldStVx | addI | ldF | ldB | ldMemVx | ldVxMem =>
    rw [decodeWord_opcodeF hop]; simp [encode, decodeGroupF]

/-- Settles O3: `decodeWord_encode`, and the two bytes in memory make the word again. -/
theorem decodeOfEncodeIsTheInstruction : Obligations.DecodeOfEncodeIsTheInstruction :=
  fun _ hwf => ⟨decodeWord_encode hwf, decode_highByte_lowByte (decodeWord_encode hwf)⟩

/-! ## A word from its own fields -/

section
variable {w : Word} {m : Nat}

theorem encodeNNN_fieldNNN (hm : m = (fieldOpcode w).val * 4096) : encodeNNN m (fieldNNN w) = w := by
  apply BitVec.eq_of_toNat_eq
  simp only [encodeNNN, BitVec.toNat_ofNat, hm, fieldOpcode_val, fieldNNN_toNat]
  omega

theorem encodeXNN_fields (hm : m = (fieldOpcode w).val * 4096) : encodeXNN m (fieldX w) (fieldNN w) = w := by
  apply BitVec.eq_of_toNat_eq
  simp only [encodeXNN, BitVec.toNat_ofNat, hm, fieldOpcode_val, fieldX_val, fieldNN_toNat]
  omega

theorem encodeXYN_fields {n : Nat} (hm : m + n = (fieldOpcode w).val * 4096 + (fieldN w).val) :
    encodeXYN m (fieldX w) (fieldY w) n = w := by
  apply BitVec.eq_of_toNat_eq
  simp only [encodeXYN, BitVec.toNat_ofNat, fieldOpcode_val, fieldX_val, fieldY_val, fieldN_val] at hm ⊢
  omega

theorem encodeX_fieldX (hm : m = (fieldOpcode w).val * 4096 + (fieldNN w).toNat) : encodeX m (fieldX w) = w := by
  apply BitVec.eq_of_toNat_eq
  simp only [encodeX, BitVec.toNat_ofNat, hm, fieldOpcode_val, fieldX_val, fieldNN_toNat]
  omega

theorem wf_jpOff_fields (w : Word) : (Instr.jpOff (fieldX w) (fieldNNN w)).wf = true := by
  rw [Instr.wf, beq_iff_eq, fieldX_val, fieldNNN_toNat]
  omega

end

/-! ## What an answer of the decoder says of the word -/

/-- The words of each class of R97; a word is never too short (`truncated` is about byte lists). -/
def DecodeError.Covers : DecodeError → Word → Prop
  | .group0, w => w.toNat / 4096 = 0x0 ∧ w.toNat ≠ 0x00E0 ∧ w.toNat ≠ 0x00EE
  | .group5, w => w.toNat / 4096 = 0x5 ∧ w.toNat % 16 ≠ 0
  | .group8, w => w.toNat / 4096 = 0x8 ∧ w.toNat % 16 ∈ [0x8, 0x9, 0xA, 0xB, 0xC, 0xD, 0xF]
  | .group9, w => w.toNat / 4096 = 0x9 ∧ w.toNat % 16 ≠ 0
  | .groupE, w => w.toNat / 4096 = 0xE ∧ w.toNat % 256 ≠ 0x9E ∧ w.toNat % 256 ≠ 0xA1
  | .groupF, w => w.toNat / 4096 = 0xF ∧ w.toNat % 256 ∉ [0x07, 0x0A, 0x15, 0x18, 0x1E, 0x29, 0x33, 0x55, 0x65]
  | .truncated, _ => False

/-- The answer is right for `w`: an instruction has `w` as its encoding, an error is the class `w` lies in. -/
def AnswerFits (w : Word) : Except DecodeError Instr → Prop
  | .ok i => i.wf = true ∧ encode i = w
  | .error e => e.Covers w

section
variable {w : Word}

theorem decodeGroup0_fits (hop : fieldOpcode w = 0x0) : AnswerFits w (decodeGroup0 w) := by
  have hw : encodeNNN 0x0000 (fieldNNN w) = w := encodeNNN_fieldNNN (by rw [hop]; rfl)
  unfold decodeGroup0
  split_ifs with hcls hret
  · exact ⟨rfl, by rw [← hw, hcls]; rfl⟩
  · exact ⟨rfl, by rw [← hw, hret]; rfl⟩
  · have hcls' : w.toNat % 4096 ≠ 0x0E0 := mt (fieldNNN_eq_iff w 0x0E0).mpr hcls
    have hret' : w.toNat % 4096 ≠ 0x0EE := mt (fieldNNN_eq_iff w 0x0EE).mpr hret
    exact ⟨congrArg Fin.val hop, by omega, by omega⟩

theorem decodeGroup8_fits (hop : fieldOpcode w = 0x8) : AnswerFits w (decodeGroup8 w) := by
  unfold decodeGroup8
  split_ifs with hn hn hn hn hn hn hn hn hn
  case neg =>
    refine ⟨congrArg Fin.val hop, ?_⟩
    simp only [fieldN_eq_iff, Fin.coe_ofNat_eq_mod, Nat.zero_mod, Nat.one_mod, Nat.reduceMod, List.mem_cons,
      List.not_mem_nil, or_false] at *
    omega
  all_goals exact ⟨rfl, encodeXYN_fields (by rw [hop, hn]; rfl)⟩

theorem decodeGroupE_fits (hop : fieldOpcode w = 0xE) : AnswerFits w (decodeGroupE w) := by
  unfold decodeGroupE
  split_ifs with hnn hnn
  case neg hskp =>
    exact ⟨congrArg Fin.val hop, mt (fieldNN_eq_iff w 0x9E).mpr hskp, mt (fieldNN_eq_iff w 0xA1).mpr hnn⟩
  all_goals exact ⟨rfl, encodeX_fieldX (by rw [hop, hnn]; rfl)⟩

theorem decodeGroupF_fits (hop : fieldOpcode w = 0xF) : AnswerFits w (decodeGroupF w) := by
  unfold decodeGroupF
  split_ifs with hnn hnn hnn hnn hnn hnn hnn hnn hnn
  case neg =>
    refine ⟨congrArg Fin.val hop, ?_⟩
    simp_all [fieldNN_eq_iff]
  all_goals exact ⟨rfl, encodeX_fieldX (by rw [hop, hnn]; rfl)⟩

end

theorem decodeWord_fits (w : Word) : AnswerFits w (decodeWord w) := by
  match hop : fieldOpcode w with
  | 0x0 => rw [decodeWord_opcode0 hop]; exact decodeGroup0_fits hop
  | 0x1 => rw [decodeWord_opcode1 hop]; exact ⟨rfl, encodeNNN_fieldNNN (by rw [hop]; rfl)⟩
  | 0x2 => rw [decodeWord_opcode2 hop]; exact ⟨rfl, encodeNNN_fieldNNN (by rw [hop]; rfl)⟩
  | 0x3 => rw [decodeWord_opcode3 hop]; exact ⟨rfl, encodeXNN_fields (by rw [hop]; rfl)⟩
  | 0x4 => rw [decodeWord_opcode4 hop]; exact ⟨rfl, encodeXNN_fields (by rw [hop]; rfl)⟩
  | 0x5 =>
    rw [decodeWord_opcode5 hop]
    split_ifs with hn
    · exact ⟨rfl, encodeXYN_fields (by rw [hop, hn]; rfl)⟩
    · exact ⟨congrArg Fin.val hop, mt (fieldN_eq_iff w 0).mpr hn⟩
  | 0x6 => rw [decodeWord_opcode6 hop]; exact ⟨rfl, encodeXNN_fields (by rw [hop]; rfl)⟩
  | 0x7 => rw [decodeWord_opcode7 hop]; exact ⟨rfl, encodeXNN_fields (by rw [hop]; rfl)⟩
  | 0x8 => rw [decodeWord_opcode8 hop]; exact decodeGroup8_fits hop
  | 0x9 =>
    rw [decodeWord_opcode9 hop]
    split_ifs with hn
    · exact ⟨rfl, encodeXYN_fields (by rw [hop, hn]; rfl)⟩
    · exact ⟨congrArg Fin.val hop, mt (fieldN_eq_iff w 0).mpr hn⟩
  | 0xA => rw [decodeWord_opcodeA hop]; exact ⟨rfl, encodeNNN_fieldNNN (by rw [hop]; rfl)⟩
  | 0xB => rw [decodeWord_opcodeB hop]; exact ⟨wf_jpOff_fields w, encodeNNN_fieldNNN (by rw [hop]; rfl)⟩
  | 0xC => rw [decodeWord_opcodeC hop]; exact ⟨rfl, encodeXNN_fields (by rw [hop]; rfl)⟩
  | 0xD => rw [decodeWord_opcodeD hop]; exact ⟨rfl, encodeXYN_fields (by rw [hop]; rfl)⟩
  | 0xE => rw [decodeWord_opcodeE hop]; exact decodeGroupE_fits hop
  | 0xF => rw [decodeWord_opcodeF hop]; exact decodeGroupF_fits hop
  | ⟨k + 16, hk⟩ => omega

section
variable {w : Word}

theorem wf_and_encode_of_decodeWord {i : Instr} (h : decodeWord w = .ok i) : i.wf = true ∧ encode i = w := by
  have hfits := decodeWord_fits w
  rwa [h] at hfits

theorem covers_of_decodeWord {e : DecodeError} (h : decodeWord w = .error e) : e.Covers w := by
  have hfits := decodeWord_fits w
  rwa [h] at hfits

theorem decodeWord_of_covers {e : DecodeError} (h : e.Covers w) : decodeWord w = .error e := by
  cases e with
  | group0 =>
    obtain ⟨hop, hcls, hret⟩ := h
    have hw : w.toNat % 4096 = w.toNat := by omega
    rw [decodeWord_opcode0 (Fin.ext hop)]
    simp [decodeGroup0, fieldNNN_eq_iff, hw, hcls, hret]
  | group5 =>
    obtain ⟨hop, hn⟩ := h
    rw [decodeWord_opcode5 (Fin.ext hop), if_neg (mt (fieldN_eq_iff w 0).mp hn)]
  | group8 =>
    obtain ⟨hop, hn⟩ := h
    rw [decodeWord_opcode8 (Fin.ext hop)]
    simp only [List.mem_cons, List.not_mem_nil, or_false] at hn
    rcases hn with hn | hn | hn | hn | hn | hn | hn <;> simp [decodeGroup8, fieldN_eq_iff, hn]
  | group9 =>
    obtain ⟨hop, hn⟩ := h
    rw [decodeWord_opcode9 (Fin.ext hop), if_neg (mt (fieldN_eq_iff w 0).mp hn)]
  | groupE =>
    obtain ⟨hop, hskp, hsknp⟩ := h
    rw [decodeWord_opcodeE (Fin.ext hop)]
    simp [decodeGroupE, fieldNN_eq_iff, hskp, hsknp]
  | groupF =>
    obtain ⟨hop, hnn⟩ := h
    rw [decodeWord_opcodeF (Fin.ext hop)]
    simp_all [decodeGroupF, fieldNN_eq_iff]
  | truncated => exact h.elim

theorem decodeWord_eq_error_iff (e : DecodeError) : decodeWord w = .error e ↔ e.Covers w :=
  ⟨covers_of_decodeWord, decodeWord_of_covers⟩

end

/-- Settles O4, by what an answer that is an instruction says (`decodeWord_fits`). -/
theorem decodedWordIsItsEncoding : Obligations.DecodedWordIsItsEncoding := fun _ _ => wf_and_encode_of_decodeWord

/-- Settles O6: an answer that is an error says the class, and the decoder finds each class's error. -/
theorem invalidWordsAreTheSixClasses : Obligations.InvalidWordsAreTheSixClasses :=
  fun _ => ⟨decodeWord_eq_error_iff .group0, decodeWord_eq_error_iff .group5, decodeWord_eq_error_iff .group9,
    decodeWord_eq_error_iff .group8, decodeWord_eq_error_iff .groupE, decodeWord_eq_error_iff .groupF,
    covers_of_decodeWord⟩

/-! ## The rows of the opcode map, by mask and match (R96, R99)

The mask of a row depends on its opcode alone, and no mask hides the opcode. So one masked word, `rowWord w`, answers
for every row whether `w` matches it. -/

/-- A mask that keeps the top nibble and the low `k` bits, as every mask of R96 does. -/
theorem toNat_and_mask (w : Word) {k : Nat} (hk : k ≤ 12) :
    (w &&& BitVec.ofNat 16 (0xF000 + (2 ^ k - 1))).toNat = w.toNat / 4096 * 4096 + w.toNat % 2 ^ k := by
  have hpow : 2 ^ k ≤ 2 ^ 12 := Nat.pow_le_pow_right (by decide) hk
  have hpos : 0 < 2 ^ k := Nat.two_pow_pos k
  have hhigh : (w.toNat &&& (0xF000 + (2 ^ k - 1))) / 2 ^ 12 = w.toNat / 2 ^ 12 := by
    rw [Nat.and_div_two_pow, show (0xF000 + (2 ^ k - 1)) / 2 ^ 12 = 2 ^ 4 - 1 by omega,
      Nat.and_two_pow_sub_one_of_lt_two_pow (by omega)]
  have hlow : (w.toNat &&& (0xF000 + (2 ^ k - 1))) % 2 ^ 12 = w.toNat % 2 ^ k := by
    rw [Nat.and_mod_two_pow, show (0xF000 + (2 ^ k - 1)) % 2 ^ 12 = 2 ^ k - 1 by omega,
      Nat.and_two_pow_sub_one_eq_mod, Nat.mod_mod_of_dvd _ (Nat.pow_dvd_pow 2 hk)]
  rw [BitVec.toNat_and, BitVec.toNat_ofNat, Nat.mod_eq_of_lt (by omega)]
  omega

/-- How many low bits select the row among those of one opcode (R95): NNN, N, NN or none. -/
def selectorBits : Nat → Nat
  | 0x0 => 12
  | 0x5 | 0x8 | 0x9 => 4
  | 0xE | 0xF => 8
  | _ => 0

theorem selectorBits_le (op : Nat) : selectorBits op ≤ 12 := by
  unfold selectorBits
  split <;> decide

/-- The mask of the rows of one opcode. -/
def rowMask (op : Nat) : Word := BitVec.ofNat 16 (0xF000 + (2 ^ selectorBits op - 1))

theorem maskWord_eq_rowMask (i : Instr) : i.maskWord = rowMask (i.matchWord.toNat / 4096) := by
  cases i <;> simp only [Instr.maskWord, Instr.matchWord] <;> rfl

theorem toNat_and_rowMask (w : Word) (op : Nat) :
    (w &&& rowMask op).toNat = w.toNat / 4096 * 4096 + w.toNat % 2 ^ selectorBits op :=
  toNat_and_mask w (selectorBits_le op)

theorem opcode_and_rowMask (w : Word) (op : Nat) : (w &&& rowMask op).toNat / 4096 = w.toNat / 4096 := by
  have hpow : 2 ^ selectorBits op ≤ 2 ^ 12 := Nat.pow_le_pow_right (by decide) (selectorBits_le op)
  have hsel : w.toNat % 2 ^ selectorBits op < 2 ^ selectorBits op := Nat.mod_lt _ (Nat.two_pow_pos _)
  rw [toNat_and_rowMask]
  omega

/-- The word under the mask of its own opcode. -/
def rowWord (w : Word) : Word := w &&& rowMask (w.toNat / 4096)

theorem toNat_rowWord (w : Word) :
    (rowWord w).toNat = w.toNat / 4096 * 4096 + w.toNat % 2 ^ selectorBits (w.toNat / 4096) :=
  toNat_and_rowMask w _

theorem and_maskWord_eq_matchWord_iff (w : Word) (i : Instr) :
    w &&& i.maskWord = i.matchWord ↔ rowWord w = i.matchWord := by
  rw [maskWord_eq_rowMask, rowWord]
  constructor
  · intro h
    have hop : w.toNat / 4096 = i.matchWord.toNat / 4096 := by rw [← opcode_and_rowMask, h]
    rw [hop, h]
  · intro h
    have hop : w.toNat / 4096 = i.matchWord.toNat / 4096 := by rw [← opcode_and_rowMask, h]
    rw [← hop, h]

theorem rowWord_encode (i : Instr) : rowWord (encode i) = i.matchWord := by
  have hop : (encode i).toNat / 4096 = i.matchWord.toNat / 4096 := congrArg Fin.val (fieldOpcode_encode i)
  apply BitVec.eq_of_toNat_eq
  rw [toNat_rowWord, hop]
  cases i <;> simp only [Instr.matchWord, BitVec.ofNat_eq_ofNat, BitVec.reduceToNat, Nat.reduceDiv]
  case cls | ret => rfl
  case jp | call | ldI | jpOff => simp only [encode, encodeNNN, selectorBits, BitVec.toNat_ofNat]; omega
  case seImm | sneImm | ldImm | addImm | rnd =>
    simp only [encode, encodeXNN, selectorBits, BitVec.toNat_ofNat]; omega
  case seReg | ldReg | orReg | andReg | xorReg | addReg | sub | shr | subn | shl | sneReg | drw =>
    simp only [encode, encodeXYN, selectorBits, BitVec.toNat_ofNat]; omega
  case skp | sknp | ldVxDt | ldVxK | ldDtVx | ldStVx | addI | ldF | ldB | ldMemVx | ldVxMem =>
    simp only [encode, encodeX, selectorBits, BitVec.toNat_ofNat]; omega

section
variable {w : Word}

theorem rowWord_of_decodeWord {i : Instr} (h : decodeWord w = .ok i) : rowWord w = i.matchWord := by
  obtain ⟨-, rfl⟩ := wf_and_encode_of_decodeWord h
  exact rowWord_encode i

/-- The mask keeps the field by which the word is invalid. -/
theorem covers_rowWord {e : DecodeError} (h : e.Covers w) : e.Covers (rowWord w) := by
  have hrow := toNat_rowWord w
  cases e with
  | truncated => exact h
  | group0 =>
    obtain ⟨hop, hcls, hret⟩ := h
    simp only [hop, selectorBits] at hrow
    exact ⟨by omega, by omega, by omega⟩
  | group5 | group8 | group9 =>
    obtain ⟨hop, hn⟩ := h
    simp only [hop, selectorBits] at hrow
    have hmod : (rowWord w).toNat % 16 = w.toNat % 16 := by omega
    exact ⟨by omega, by rwa [hmod]⟩
  | groupE | groupF =>
    obtain ⟨hop, hnn⟩ := h
    simp only [hop, selectorBits] at hrow
    have hmod : (rowWord w).toNat % 256 = w.toNat % 256 := by omega
    exact ⟨by omega, by rwa [hmod]⟩

theorem decodeWord_matchWord (i : Instr) : ∃ j, decodeWord i.matchWord = .ok j := by
  cases i <;> simp only [Instr.matchWord] <;> exact ⟨_, rfl⟩

/-- An invalid word matches no row: else the row's match word were invalid too. -/
theorem rowWord_ne_of_error {e : DecodeError} (h : decodeWord w = .error e) (i : Instr) :
    rowWord w ≠ i.matchWord := by
  intro hrow
  obtain ⟨j, hj⟩ := decodeWord_matchWord i
  have herr : decodeWord (rowWord w) = .error e := decodeWord_of_covers (covers_rowWord (covers_of_decodeWord h))
  rw [hrow, hj] at herr
  cases herr

end

/-- Settles O5: a word that decodes is of the row whose match word is `rowWord w`; an invalid word has no such row. -/
theorem wordIsOfARowExactlyWhenItMatches : Obligations.WordIsOfARowExactlyWhenItMatches := by
  intro w
  simp only [ne_eq, and_maskWord_eq_matchWord_iff]
  refine ⟨fun i => ⟨?_, ?_⟩, fun i j hi hj => hi.symm.trans hj, ?_, ?_⟩
  · rintro ⟨j, hj, hij⟩
    rw [rowWord_of_decodeWord hj, hij]
  · intro hi
    cases hdec : decodeWord w with
    | ok j => exact ⟨j, rfl, (rowWord_of_decodeWord hdec).symm.trans hi⟩
    | error e => exact absurd hi (rowWord_ne_of_error hdec i)
  · rintro ⟨e, he⟩
    exact rowWord_ne_of_error he
  · intro hnone
    cases hdec : decodeWord w with
    | ok j => exact absurd (rowWord_of_decodeWord hdec) (hnone j)
    | error e => exact ⟨e, rfl⟩

/-! ## Words of the spec's patterns -/

/-- Settles O1, by evaluating the decoder on the fourteen words. -/
theorem specWordsDecode : Obligations.SpecWordsDecode := by
  unfold Obligations.SpecWordsDecode
  decide

end Sys2Proof

/-! # Proofs: the engine cycle (40_engine_cycle.md)

The four ways an engine step goes: a running engine executes the word at `pc` (O7), faults at the fetch (O8) or takes an
invalid word (O9); a blocked or halted one does nothing (O10). -/

namespace Sys2Proof.Machine

/-! ## What an event's start and a fetch write -/

theorem keepsBut_begin (s : State) : KeepsBut [.agenda] s s.begin := by
  intro c hc; cases c <;> simp_all [Comp.Kept]

theorem keepsBut_fetched (s : State) : KeepsBut [.cip, .pc] s s.fetched := by
  intro c hc; cases c <;> simp_all [Comp.Kept]

theorem keepsBut_fetchFault (s : State) : KeepsBut [.es, .cip, .dumps] s s.fetchFault := by
  intro c hc; cases c <;> simp_all [Comp.Kept, State.fetchFault]

/-- A running engine halts on the fault raised, and one diagnostic request is counted (R255, R286). -/
theorem State.raise_of_running {s : State} (f : FaultKind) (h : s.es = .running) :
    (s.raise f).es = .halted f ∧ (s.raise f).dumps = s.dumps + 1 := by
  rw [s.raise_running f h]
  exact ⟨rfl, rfl⟩

/-! ## The engine step of a running engine -/

theorem step_of_running {s : State} (he : s.nextEvent = .engineStep) (hrun : s.es = .running) :
    step s = runInstruction s.begin :=
  (step_of_nextEvent he).trans (engineStep_of_running (s := s.begin) hrun)

/-- Settles O7: `decodeWord` answers well-formed instructions only, and the step executes after the fetch. -/
theorem stepRunsTheDecodedInstruction : Obligations.StepRunsTheDecodedInstruction := by
  intro s i he hrun hpc hi
  obtain ⟨hwf, -⟩ := wf_and_encode_of_decodeWord hi
  refine ⟨hwf, ?_⟩
  rw [← State.begin_fetched_eq]
  exact step_of_decodeWord he hrun hpc hi

/-- Settles O8: there is no word to fetch, so the step is `fetchFault`. -/
theorem fetchPastMemoryHalts : Obligations.FetchPastMemoryHalts := by
  intro s he hrun hpc
  have hstep : step s = .next s.begin.fetchFault :=
    (step_of_running he hrun).trans (runInstruction_of_none (s := s.begin) (State.fetchWord_eq_none hpc))
  obtain ⟨hes, hdumps⟩ := State.raise_of_running (s := { s.begin with cip := s.pc }) .memoryOutOfBounds hrun
  have hframe : KeepsBut [.es, .cip, .dumps, .agenda] s s.begin.fetchFault :=
    ((keepsBut_begin s).mono (by simp)).trans ((keepsBut_fetchFault s.begin).mono (by simp))
  exact ⟨_, hstep, hes, State.raise_cip _ _, State.raise_pc _ _, hdumps, State.raise_agenda _ _,
    hframe.sameBut (State.fetchFault_params s.begin)⟩

/-- Settles O9: the fetch has set `cip` and advanced `pc`, and the invalid word only raises. -/
theorem invalidWordHalts : Obligations.InvalidWordHalts := by
  intro s e he hrun hpc hd
  have hstep : step s = .next (s.begin.fetched.raise .invalidInstruction) :=
    (step_of_running he hrun).trans (runInstruction_of_error (s := s.begin) (State.fetchWord_eq_some hpc) hd)
  obtain ⟨hes, hdumps⟩ := State.raise_of_running (s := s.begin.fetched) .invalidInstruction hrun
  have hpc' : (s.begin.fetched.raise .invalidInstruction).pc.toNat = s.pc.toNat + 2 := by
    rw [State.raise_pc]
    exact State.fetched_pc_toNat (s := s.begin) hpc
  have hframe : KeepsBut [.es, .cip, .pc, .dumps, .agenda] s (s.begin.fetched.raise .invalidInstruction) :=
    ((keepsBut_begin s).mono (by simp)).trans
      (((keepsBut_fetched _).mono (by simp)).trans ((keepsBut_raise _ _).mono (by simp)))
  exact ⟨_, hstep, hes, State.raise_cip _ _, hpc', hdumps, State.raise_agenda _ _,
    hframe.sameBut (State.raise_params _ _)⟩

/-! ## The engine step of a blocked or halted engine -/

/-- Settles O10: the event leaves the agenda, and that is all. -/
theorem blockedAndHaltedEngineStepsDoNothing : Obligations.BlockedAndHaltedEngineStepsDoNothing := by
  intro s he hnot
  have hstep : step s = .next s.begin :=
    (step_of_nextEvent he).trans (engineStep_of_not_running (s := s.begin) hnot)
  exact ⟨s.begin, hstep, rfl, (keepsBut_begin s).sameBut rfl⟩

end Sys2Proof.Machine

/-! # Proofs: control transfer and the register skips (41_flow_and_skips.md)

RET (O13), the jumps and CALL (O14), and the four skips on register values (O15). Each decodes by `decodeWord_encode`;
its frame is its row of `writtenBy`, but for RET, which writes other components on its fault path. -/

namespace Sys2Proof.Machine

/-- An instruction changes no component that its row of `writtenBy` does not name. -/
theorem exec_sameBut {i : Instr} {s t : State} (h : exec i s = .next t) : SameBut (writtenBy i) s t :=
  (exec_keepsBut h).sameBut (exec_params h)

/-! ## Return (R141) -/

theorem exec_ret_of_nil {s : State} (h : s.stack = []) : exec .ret s = .next (s.raise .stackUnderflow) := by
  simp only [exec, execRet, h]

theorem exec_ret_of_cons {s : State} {w : Word} {rest : List Word} (h : s.stack = w :: rest) :
    exec .ret s = .next { s with pc := w, stack := rest } := by
  simp only [exec, execRet, h]

/-- A pop into `pc` writes `pc` and the stack only. -/
theorem keepsBut_popIntoPc (s : State) (w : Word) (rest : List Word) :
    KeepsBut [.pc, .stack] s { s with pc := w, stack := rest } := by
  intro c hc; cases c <;> simp_all [Comp.Kept]

/-- Settles O13, a clause for each shape of the stack. -/
theorem retPopsTheStackOrUnderflows : Obligations.RetPopsTheStackOrUnderflows := by
  refine ⟨decodeWord_encode (i := .ret) rfl, fun s w rest hstack => ?_, fun s hstack hrun => ?_⟩
  · exact ⟨_, exec_ret_of_cons hstack, rfl, rfl, (keepsBut_popIntoPc s w rest).sameBut rfl⟩
  · obtain ⟨hes, -⟩ := State.raise_of_running .stackUnderflow hrun
    exact ⟨_, exec_ret_of_nil hstack, hes, (keepsBut_raise s _).sameBut (State.raise_params s _)⟩

/-! ## Jumps and call (R142, R143, R148) -/

/-- Settles O14: the target is the 12-bit operand, with `V[X]` added for `BXNN`; neither wraps in 16 bits. -/
theorem jumpsAndCallSetThePc : Obligations.JumpsAndCallSetThePc := by
  refine ⟨fun nnn s => ?jp, fun nnn s => ?call, fun nnn x s hx => ?jpOff⟩
  case jp =>
    exact ⟨decodeWord_encode (i := .jp nnn) rfl, _, rfl, addrOperand_toNat nnn, exec_sameBut (i := .jp nnn) rfl⟩
  case call =>
    exact ⟨decodeWord_encode (i := .call nnn) rfl, _, rfl, rfl, addrOperand_toNat nnn,
      exec_sameBut (i := .call nnn) rfl⟩
  case jpOff =>
    have hwf : (Instr.jpOff x nnn).wf = true := beq_iff_eq.mpr hx
    exact ⟨decodeWord_encode hwf, _, rfl, offsetTarget_toNat nnn (s.reg x), exec_sameBut (i := .jpOff x nnn) rfl⟩

/-! ## Skips (R144 to R147, R149) -/

/-- The skip of R149, its sum taken modulo 65536. -/
theorem State.skipIf_pc_toNat (s : State) (c : Bool) :
    (s.skipIf c).pc.toNat = if c = true then (s.pc.toNat + 2) % 65536 else s.pc.toNat := by
  rw [State.skipIf_pc, apply_ite BitVec.toNat, BitVec.toNat_add]
  rfl

/-- An instruction that skips on a test of `p` adds 2 to `pc` exactly when `p` holds, and writes `pc` only. -/
theorem exec_skips {i : Instr} {s : State} {c : Bool} {p : Prop} [Decidable p] (h : exec i s = .next (s.skipIf c))
    (hc : c = true ↔ p) :
    ∃ t, exec i s = .next t ∧ t.pc.toNat = (if p then (s.pc.toNat + 2) % 65536 else s.pc.toNat) ∧
      SameBut [.pc] s t := by
  refine ⟨_, h, ?_, (keepsBut_skipIf s c).sameBut (State.skipIf_params s c)⟩
  simp only [State.skipIf_pc_toNat, hc]

/-- Settles O15: each of the four is `exec_skips` for its own test. -/
theorem registerSkipsStepOverOneInstruction : Obligations.RegisterSkipsStepOverOneInstruction := by
  refine ⟨fun x nn s => ?seImm, fun x nn s => ?sneImm, fun x y s => ?seReg, fun x y s => ?sneReg⟩
  case seImm => exact ⟨decodeWord_encode (i := .seImm x nn) rfl, exec_skips rfl beq_iff_eq⟩
  case sneImm => exact ⟨decodeWord_encode (i := .sneImm x nn) rfl, exec_skips rfl bne_iff_ne⟩
  case seReg => exact ⟨decodeWord_encode (i := .seReg x y) rfl, exec_skips rfl beq_iff_eq⟩
  case sneReg => exact ⟨decodeWord_encode (i := .sneReg x y) rfl, exec_skips rfl bne_iff_ne⟩

end Sys2Proof.Machine

/-! # Proofs: loads, arithmetic and the random byte (42_load_alu_random.md)

The instructions that write one register (O16, O17), the writers of a result and a flag (O18, O19, O20), and RND (O21).
Each decodes by `decodeWord_encode`. But for RND, what it writes and what it leaves is
`exec_writesRegister` or `exec_writesResultThenFlag`; the rest is the number that its result and its flag stand for. -/

namespace Sys2Proof.Machine

/-! ## The arithmetic unit in numbers (R160, R32) -/

section
variable (a b : Byte)

theorem addResult_toNat : (addResult a b).toNat = (a.toNat + b.toNat) % 256 := BitVec.toNat_ofNat _ 8

/-- The non-negative residue, with 256 added before the subtraction so that it does not go below 0. -/
theorem subResult_toNat : (subResult a b).toNat = (a.toNat + 256 - b.toNat) % 256 := by
  have hb := b.isLt
  rw [subResult, BitVec.toNat_ofInt]
  omega

theorem shrResult_toNat : (shrResult a).toNat = a.toNat / 2 := by
  have ha := a.isLt
  rw [shrResult, BitVec.toNat_ofNat]
  omega

theorem shlResult_toNat : (shlResult a).toNat = a.toNat * 2 % 256 := BitVec.toNat_ofNat _ 8

theorem flagByte_toNat (f : Bool) : (flagByte f).toNat = if f = true then 1 else 0 := by cases f <;> rfl

theorem flagByte_addCarry_toNat : (flagByte (addCarry a b)).toNat = if a.toNat + b.toNat > 255 then 1 else 0 := by
  simp only [flagByte_toNat, addCarry, decide_eq_true_eq]

theorem flagByte_subFlag_toNat : (flagByte (subFlag a b)).toNat = if a.toNat > b.toNat then 1 else 0 := by
  simp only [flagByte_toNat, subFlag, decide_eq_true_eq]

/-- The flag of SHR is bit 0 itself. -/
theorem flagByte_shrFlag_toNat : (flagByte (shrFlag a)).toNat = a.toNat % 2 := by
  simp only [flagByte_toNat, shrFlag, beq_iff_eq]
  split <;> omega

/-- The flag of SHL is bit 7 itself: a byte holds 0 or 1 times 128. -/
theorem flagByte_shlFlag_toNat : (flagByte (shlFlag a)).toNat = a.toNat / 128 := by
  have ha := a.isLt
  simp only [flagByte_toNat, shlFlag, beq_iff_eq]
  split <;> omega

end

/-! ## The random byte (R177) -/

theorem State.reg_setReg_same (s : State) (r : RegNum) (b : Byte) : (s.setReg r b).reg r = b := by
  rw [State.reg_setReg, if_pos rfl]

theorem draws_mem_writtenBy {i : Instr} (h : Comp.draws ∈ writtenBy i) : ∃ x nn, i = .rnd x nn := by
  cases i <;> simp [writtenBy] at h ⊢

/-- A byte under a mask has no bit outside the mask. -/
theorem and_mask_and_not_mask (b m : Byte) : b &&& m &&& ~~~m = 0 := by
  rw [BitVec.and_assoc, BitVec.and_not_self]
  exact BitVec.and_zero

/-- Settles O21: RND writes the drawn byte under the mask, and only its row of `writtenBy` names the draws. -/
theorem rndMasksOneFreeByte : Obligations.RndMasksOneFreeByte := by
  refine ⟨fun x nn s => ?masks, fun i s t h hdraws => draws_mem_writtenBy (mem_writtenBy h hdraws)⟩
  have hreg := State.reg_setReg_same s.drawByte.2 x (s.drawByte.1 &&& nn)
  have hmask : (s.drawByte.2.setReg x (s.drawByte.1 &&& nn)).reg x &&& ~~~nn = 0 := by
    rw [hreg, and_mask_and_not_mask]
  exact ⟨decodeWord_encode (i := .rnd x nn) rfl, _, rfl, hreg, hmask, rfl, regsBut_setReg s.drawByte.2 x _,
    exec_sameBut (i := .rnd x nn) rfl⟩

/-! ## One register (R162 to R167) -/

/-- An instruction that sets `V[X]` changes nothing else. -/
theorem exec_writesRegister {i : Instr} {s : State} {x : RegNum} {b : Byte} (h : exec i s = .next (s.setReg x b)) :
    ∃ t, exec i s = .next t ∧ t.reg x = b ∧ RegsBut [x] s t ∧ SameBut [.regs] s t :=
  ⟨_, h, State.reg_setReg_same s x b, regsBut_setReg s x b, (keepsBut_setReg s x b).sameBut rfl⟩

/-- Settles O16: each is `exec_writesRegister` for its own byte. -/
theorem loadsAndAddImmediateWriteOneRegister : Obligations.LoadsAndAddImmediateWriteOneRegister := by
  refine ⟨fun x nn s => ?ldImm, fun x nn s => ?addImm, fun x y s => ?ldReg⟩
  case ldImm => exact ⟨decodeWord_encode (i := .ldImm x nn) rfl, exec_writesRegister rfl⟩
  case addImm =>
    obtain ⟨t, ht, hx, hframe⟩ := exec_writesRegister (i := .addImm x nn) (s := s) rfl
    exact ⟨decodeWord_encode (i := .addImm x nn) rfl, t, ht, by rw [hx, addResult_toNat], hframe⟩
  case ldReg => exact ⟨decodeWord_encode (i := .ldReg x y) rfl, exec_writesRegister rfl⟩

/-- Settles O17: the byte written is a bitwise combination, read bit by bit. -/
theorem logicWritesOneRegisterBitByBit : Obligations.LogicWritesOneRegisterBitByBit := by
  refine ⟨fun x y s => ?orReg, fun x y s => ?andReg, fun x y s => ?xorReg⟩
  case orReg =>
    obtain ⟨t, ht, hx, hframe⟩ := exec_writesRegister (i := .orReg x y) (s := s) rfl
    exact ⟨decodeWord_encode (i := .orReg x y) rfl, t, ht, fun b => by rw [hx, BitVec.getLsbD_or], hframe⟩
  case andReg =>
    obtain ⟨t, ht, hx, hframe⟩ := exec_writesRegister (i := .andReg x y) (s := s) rfl
    exact ⟨decodeWord_encode (i := .andReg x y) rfl, t, ht, fun b => by rw [hx, BitVec.getLsbD_and], hframe⟩
  case xorReg =>
    obtain ⟨t, ht, hx, hframe⟩ := exec_writesRegister (i := .xorReg x y) (s := s) rfl
    exact ⟨decodeWord_encode (i := .xorReg x y) rfl, t, ht, fun b => by rw [hx, BitVec.getLsbD_xor], hframe⟩

/-! ## A result and a flag (R161, R168 to R172) -/

/-- An instruction that writes a result and then a flag leaves the number of the result in `V[X]`, unless that is VF,
and the number of the flag in VF; nothing else changes (R161, D4). -/
theorem exec_writesResultThenFlag {i : Instr} {s : State} {x : RegNum} {result : Byte} {flag : Bool} {n m : Nat}
    (h : exec i s = .next (s.setResultThenFlag x result flag)) (hresult : result.toNat = n)
    (hflag : (flagByte flag).toNat = m) :
    ∃ t, exec i s = .next t ∧ (x ≠ 15 → (t.reg x).toNat = n) ∧ (t.reg 15).toNat = m ∧ RegsBut [x, 15] s t ∧
      SameBut [.regs] s t := by
  refine ⟨_, h, fun hx => ?_, ?_, regsBut_setResultThenFlag s x _ _, (keepsBut_setResultThenFlag s x _ _).sameBut rfl⟩
  · rw [State.reg_setResultThenFlag, if_neg (show x ≠ vf from hx), if_pos rfl, hresult]
  · rw [State.reg_setResultThenFlag, if_pos (show (15 : RegNum) = vf from rfl), hflag]

/-- Settles O18: the result is the sum, the flag the carry. -/
theorem addWritesSumAndCarry : Obligations.AddWritesSumAndCarry := fun x y _ =>
  ⟨decodeWord_encode (i := .addReg x y) rfl,
    exec_writesResultThenFlag rfl (addResult_toNat _ _) (flagByte_addCarry_toNat _ _)⟩

/-- Settles O19: SUBN is SUB with minuend and subtrahend exchanged. -/
theorem subtractionsWriteDifferenceAndStrictFlag : Obligations.SubtractionsWriteDifferenceAndStrictFlag := by
  refine ⟨fun x y s => ?sub, fun x y s => ?subn⟩
  case sub =>
    exact ⟨decodeWord_encode (i := .sub x y) rfl,
      exec_writesResultThenFlag rfl (subResult_toNat _ _) (flagByte_subFlag_toNat _ _)⟩
  case subn =>
    exact ⟨decodeWord_encode (i := .subn x y) rfl,
      exec_writesResultThenFlag rfl (subResult_toNat _ _) (flagByte_subFlag_toNat _ _)⟩

/-- Settles O20: the meaning of a shift does not name Y, so all its values agree by definition. -/
theorem shiftsMoveVxInPlaceAndIgnoreY : Obligations.ShiftsMoveVxInPlaceAndIgnoreY := by
  refine ⟨fun x y s => ?shr, fun x y s => ?shl⟩
  case shr =>
    obtain ⟨t, ht, hwrites⟩ := exec_writesResultThenFlag (i := .shr x y) (s := s) rfl (shrResult_toNat _)
      (flagByte_shrFlag_toNat _)
    exact ⟨decodeWord_encode (i := .shr x y) rfl, t, ht, fun _ => rfl, hwrites⟩
  case shl =>
    obtain ⟨t, ht, hwrites⟩ := exec_writesResultThenFlag (i := .shl x y) (s := s) rfl (shlResult_toNat _)
      (flagByte_shlFlag_toNat _)
    exact ⟨decodeWord_encode (i := .shl x y) rfl, t, ht, fun _ => rfl, hwrites⟩

end Sys2Proof.Machine

/-! # Proofs: index register and memory (43_index_and_memory.md)

The writers of I (O22), the stores LD B (O23) and LD [I],Vx (O24), and the load LD Vx,[I] (O25). Both stores are
`exec_stores`: what a sequence of byte writes leaves in memory, and how it ends where its last address exists and where
it does not. -/

namespace Sys2Proof.Machine

/-! ## The index register (R191 to R193) -/

/-- Settles O22: each sets I, and its row of `writtenBy` names nothing else. -/
theorem indexInstructionsSetI : Obligations.IndexInstructionsSetI := by
  refine ⟨fun nnn s => ?ldI, fun x s => ?addI, fun x s => ?ldF⟩
  case ldI =>
    exact ⟨decodeWord_encode (i := .ldI nnn) rfl, _, rfl, addrOperand_toNat nnn, exec_sameBut (i := .ldI nnn) rfl⟩
  case addI =>
    exact ⟨decodeWord_encode (i := .addI x) rfl, _, rfl, BitVec.toNat_ofNat _ 16, exec_sameBut (i := .addI x) rfl⟩
  case ldF =>
    exact ⟨decodeWord_encode (i := .ldF x) rfl, _, rfl, BitVec.toNat_ofNat _ 16, exec_sameBut (i := .ldF x) rfl⟩

/-! ## A sequence of byte writes (R62, R66) -/

section
variable {bs : List Byte} {a : Nat} {s : State}

/-- The bytes below 4096 stand in memory, those past it are lost, and no other address is written. -/
theorem State.byte_storeBytes (hne : bs ≠ []) (k : Nat) :
    (State.storeBytes bs a s).byte k =
      if a ≤ k ∧ k < a + bs.length ∧ k < 4096 then bs.getD (k - a) 0 else s.byte k := by
  by_cases hfit : a + bs.length ≤ 4096
  · rw [State.storeBytes_fits bs a s hfit]
    exact (Memory.read_writeList s.params bs s.mem a k).trans (if_congr (by omega) rfl rfl)
  · rw [State.storeBytes_faults bs a s hne (by omega), State.raise_byte]
    refine (Memory.read_writeList s.params (bs.take (4096 - a)) s.mem a k).trans ?_
    rw [List.length_take]
    by_cases hk : a ≤ k ∧ k < a + bs.length ∧ k < 4096
    · rw [if_pos hk, if_pos (by omega), List.getD_eq_getElem?_getD, List.getElem?_take_of_lt (by omega),
        List.getD_eq_getElem?_getD]
    · rw [if_neg hk, if_neg (by omega)]
      rfl

theorem keepsBut_storeBytes_of_fits (hfit : a + bs.length ≤ 4096) : KeepsBut [.mem] s (State.storeBytes bs a s) := by
  rw [State.storeBytes_fits bs a s hfit]
  intro c hc; cases c <;> simp_all [Comp.Kept]

theorem State.storeBytes_halts (hrun : s.es = .running) (hne : bs ≠ []) (hpast : 4096 < a + bs.length) :
    (State.storeBytes bs a s).es = .halted .memoryOutOfBounds := by
  rw [State.storeBytes_faults bs a s hne hpast]
  obtain ⟨hes, -⟩ := State.raise_of_running
    (s := { s with mem := Memory.writeList s.params s.mem a (bs.take (4096 - a)) }) .memoryOutOfBounds hrun
  exact hes

end

theorem State.effAddr_inj (s : State) {j k : Nat} : s.effAddr j = s.effAddr k ↔ j = k := Nat.add_left_cancel_iff

/-- An instruction that stores bytes at I, I + 1, ..., I + n writes those below 4096; when all are, it writes memory
only, else it halts a running engine (D1, D3). -/
theorem exec_stores {i : Instr} {s : State} {bs : List Byte} {n : Nat}
    (h : exec i s = .next (State.storeBytes bs (s.effAddr 0) s)) (hlen : bs.length = n + 1) (hrun : s.es = .running) :
    ∃ t, exec i s = .next t ∧
      (∀ j ≤ n, s.effAddr j < 4096 → t.byte (s.effAddr j) = bs.getD j 0) ∧
      (∀ a, (∀ j ≤ n, s.effAddr j < 4096 → a ≠ s.effAddr j) → t.byte a = s.byte a) ∧
      (s.effAddr n < 4096 → SameBut [.mem] s t) ∧
      (4096 ≤ s.effAddr n → t.es = .halted .memoryOutOfBounds ∧ SameBut [.mem, .es, .dumps] s t) := by
  have hne : bs ≠ [] := List.ne_nil_of_length_eq_add_one hlen
  have hend : s.effAddr 0 + bs.length = s.effAddr n + 1 := by simp only [State.effAddr, hlen]; omega
  refine ⟨_, h, fun j hj hlt => ?_, fun a hother => ?_, fun hfit => ?_, fun hpast => ⟨?_, ?_⟩⟩
  · have haddr : s.effAddr j = s.effAddr 0 + j := rfl
    rw [State.byte_storeBytes hne, if_pos (by omega), haddr, Nat.add_sub_cancel_left]
  · rw [State.byte_storeBytes hne, if_neg]
    rintro ⟨hge, hle, hlt⟩
    obtain ⟨j, rfl⟩ := Nat.exists_eq_add_of_le hge
    exact hother j (by omega) hlt rfl
  · exact (keepsBut_storeBytes_of_fits (by omega)).sameBut (exec_params h)
  · exact State.storeBytes_halts hrun hne (by omega)
  · exact (keepsBut_storeBytes bs _ s).sameBut (exec_params h)

/-! ## The decimal store (R194) -/

theorem map_toNat_decimalDigits (b : Byte) :
    (decimalDigits b).map BitVec.toNat = [b.toNat / 100, b.toNat / 10 % 10, b.toNat % 10] := by
  have hb := b.isLt
  simp only [decimalDigits, List.map_cons, List.map_nil, BitVec.toNat_ofNat, List.cons.injEq, and_true]
  omega

/-- Settles O23: the three digits are stored by `exec_stores`; an address that gets one is I, I + 1 or I + 2. -/
theorem decimalStoreWritesThreeDigits : Obligations.DecimalStoreWritesThreeDigits := by
  refine fun x s => ⟨decodeWord_encode (i := .ldB x) rfl, fun hrun => ?_⟩
  obtain ⟨t, ht, hstored, hkept, hends⟩ := exec_stores (i := .ldB x) (n := 2) rfl rfl hrun
  refine ⟨t, ht, fun a => ?_, hends⟩
  by_cases hin : ∃ j ≤ 2, a = s.effAddr j ∧ a < 4096
  · obtain ⟨j, hj, rfl, hlt⟩ := hin
    have hdigit := List.getD_map (f := BitVec.toNat) (l := decimalDigits (s.reg x)) (n := j) (d := 0)
    rw [hstored j hj hlt, ← hdigit, map_toNat_decimalDigits]
    interval_cases j <;> simp [State.effAddr_inj, hlt]
  · have hnot (j : Nat) (hj : j ≤ 2) : ¬ (a = s.effAddr j ∧ a < 4096) := fun h => hin ⟨j, hj, h⟩
    rw [hkept a fun j hj hlt ha => hnot j hj ⟨ha, ha ▸ hlt⟩, if_neg (hnot 0 (by decide)),
      if_neg (hnot 1 (by decide)), if_neg (hnot 2 (by decide))]

/-! ## The register block store (R195) -/

/-- Settles O24: V0..V[X] are stored by `exec_stores`; the places up to X are register numbers. -/
theorem registerBlockStore : Obligations.RegisterBlockStore := by
  refine fun x s => ⟨decodeWord_encode (i := .ldMemVx x) rfl, fun hrun => ?_⟩
  have hlen : ((regsUpTo x).map s.reg).length = x.val + 1 := by rw [List.length_map, length_regsUpTo]
  obtain ⟨t, ht, hstored, hkept, hends⟩ := exec_stores (i := .ldMemVx x) rfl hlen hrun
  refine ⟨t, ht, fun r hr hlt => ?_, fun a hother => ?_, hends⟩
  · rw [hstored r hr hlt, getD_regsUpTo s x r hr]
  · exact hkept a fun j hj => hother ⟨j, hj.trans_lt x.isLt⟩ hj

/-! ## The register block load (R196) -/

section
variable {x : RegNum} {a : Nat} {s : State}

/-- V0..V[X] get the bytes at `a`, `a + 1`, ... below 4096; the other registers keep their values. -/
theorem State.reg_loadRegs_regsUpTo (r : RegNum) :
    (State.loadRegs (regsUpTo x) a s).reg r =
      if r.val ≤ x.val ∧ a + r.val < 4096 then s.byte (a + r.val) else s.reg r := by
  have hlen := length_regsUpTo x
  by_cases hfit : a + x.val < 4096
  · rw [State.loadRegs_fits _ a s (by omega), regsUpTo, State.reg_copyRegs_take]
    exact if_congr (by omega) rfl rfl
  · rw [State.loadRegs_faults _ a s (List.ne_nil_of_length_eq_add_one hlen) (by omega), State.raise_reg, regsUpTo,
      List.take_take, State.reg_copyRegs_take]
    exact if_congr (by omega) rfl rfl

theorem keepsBut_loadRegs_of_fits {rs : List RegNum} (hfit : a + rs.length ≤ 4096) :
    KeepsBut [.regs] s (State.loadRegs rs a s) := by
  rw [State.loadRegs_fits rs a s hfit, State.copyRegs_eq]
  intro c hc; cases c <;> simp_all [Comp.Kept]

theorem State.loadRegs_halts {rs : List RegNum} (hrun : s.es = .running) (hne : rs ≠ [])
    (hpast : 4096 < a + rs.length) :
    (State.loadRegs rs a s).es = .halted .memoryOutOfBounds := by
  have hcopied : (State.copyRegs (rs.take (4096 - a)) a s).es = .running := by rw [State.copyRegs_eq, hrun]
  obtain ⟨hes, -⟩ := State.raise_of_running .memoryOutOfBounds hcopied
  rw [State.loadRegs_faults rs a s hne hpast, hes]

end

/-- Settles O25: `loadRegs` of V0..V[X] from I. -/
theorem registerBlockLoad : Obligations.RegisterBlockLoad := by
  refine fun x s => ⟨decodeWord_encode (i := .ldVxMem x) rfl, fun hrun => ?_⟩
  have hlen := length_regsUpTo x
  have hend : s.effAddr 0 + (regsUpTo x).length = s.effAddr x.val + 1 := by simp only [State.effAddr, hlen]; omega
  refine ⟨_, rfl, fun r => State.reg_loadRegs_regsUpTo r, fun hfit => ?_, fun hpast => ⟨?_, ?_⟩⟩
  · exact (keepsBut_loadRegs_of_fits (by omega)).sameBut (exec_params (i := .ldVxMem x) rfl)
  · exact State.loadRegs_halts hrun (List.ne_nil_of_length_eq_add_one hlen) (by omega)
  · exact exec_sameBut (i := .ldVxMem x) rfl

end Sys2Proof.Machine

/-! # Proofs: the display (44_display.md)

CLS (O26), and DRW: what one draw does (O27) and what a second one undoes (O28). A draw is `drawRows` from row 0; by
`State.drawRows_eq_ite` it draws the rows that have a byte and then, if some row has none, raises its fault. -/

namespace Sys2Proof.Machine

/-! ## Clear (R211) -/

/-- Settles O26: what is read after the clear is its law, the frame is the row of CLS in `writtenBy`. -/
theorem clearTurnsEveryCellOff : Obligations.ClearTurnsEveryCellOff := by
  refine ⟨decodeWord_encode (i := .cls) rfl, fun s => ?_⟩
  have hexec : exec .cls s = .next s.clearDisplay := rfl
  exact ⟨_, hexec, State.pixel_clearDisplay s, exec_sameBut hexec⟩

/-! ## The rows that have a byte (R213) -/

/-- Some bit of the first `d` sprite rows lands on a lit cell. -/
def State.SpriteHits (s : State) (x0 y0 d : Nat) : Prop :=
  ∃ r c, s.spritePixel x0 y0 d r c = true ∧ s.pixel r c = true

/-- How many of the `n` rows of the sprite at I have a byte. -/
def State.rowsInMemory (s : State) (n : Nat) : Nat := min n (4096 - s.i.toNat)

theorem State.rowsInMemory_of_fits {s : State} {n : Nat} (h : s.i.toNat + n ≤ 4096) : s.rowsInMemory n = n :=
  Nat.min_eq_left (by omega)

theorem State.spritePixel_no_rows (s : State) (x0 y0 r c : Nat) : s.spritePixel x0 y0 0 r c = false := by
  rw [State.spritePixel, decide_eq_false (by omega), Bool.false_and]

theorem State.not_spriteHits_no_rows (s : State) (x0 y0 : Nat) : ¬ s.SpriteHits x0 y0 0 := by
  rintro ⟨r, c, hbit, -⟩
  rw [State.spritePixel_no_rows] at hbit
  exact Bool.false_ne_true hbit

theorem keepsBut_displayAndRegs (s : State) (fb : Framebuffer) (v : Vector Byte 16) :
    KeepsBut [.regs, .fb] s { s with fb := fb, v := v } := by
  intro c hc; cases c <;> simp_all [Comp.Kept]

section
variable (s : State) (x0 y0 n : Nat)

/-- D3: the rows before the fault stay drawn. -/
theorem State.drawRows_eq_ite :
    State.drawRows x0 y0 n 0 s =
      if s.rowsInMemory n = n then State.drawRows x0 y0 (s.rowsInMemory n) 0 s
      else (State.drawRows x0 y0 (s.rowsInMemory n) 0 s).raise .memoryOutOfBounds := by
  split
  case isTrue h => rw [h]
  case isFalse h =>
    unfold State.rowsInMemory at h ⊢
    rw [State.drawRows_stop, if_neg (by omega), Nat.min_eq_right (by omega), Nat.add_zero]

/-- The rows that have a byte XOR their bits into the display, set VF if one of them hits, and write nothing else. -/
theorem State.drawRows_rowsInMemory :
    (∀ r c, (State.drawRows x0 y0 (s.rowsInMemory n) 0 s).pixel r c =
      (s.pixel r c ^^ s.spritePixel x0 y0 (s.rowsInMemory n) r c)) ∧
    (s.SpriteHits x0 y0 (s.rowsInMemory n) → (State.drawRows x0 y0 (s.rowsInMemory n) 0 s).reg vf = 1) ∧
    (¬ s.SpriteHits x0 y0 (s.rowsInMemory n) → (State.drawRows x0 y0 (s.rowsInMemory n) 0 s).reg vf = s.reg vf) ∧
    KeepsBut [.regs, .fb] s (State.drawRows x0 y0 (s.rowsInMemory n) 0 s) := by
  by_cases hi : s.i.toNat ≤ 4096
  · have hfit : s.i.toNat + 0 + s.rowsInMemory n ≤ 4096 := by unfold State.rowsInMemory; omega
    obtain ⟨hpix, -, hhit, hmiss, heq⟩ := State.drawRows_fits x0 y0 _ 0 s hfit
    refine ⟨hpix, hhit, hmiss, ?_⟩
    rw [heq]
    exact keepsBut_displayAndRegs s _ _
  · have hnone : s.rowsInMemory n = 0 := by unfold State.rowsInMemory; omega
    rw [hnone, State.drawRows]
    refine ⟨fun r c => ?_, fun hhit => absurd hhit (s.not_spriteHits_no_rows x0 y0), fun _ => rfl,
      keepsBut_displayAndRegs s s.fb s.v⟩
    rw [State.spritePixel_no_rows, Bool.xor_false]

theorem State.pixel_drawRows (r c : Nat) :
    (State.drawRows x0 y0 n 0 s).pixel r c = (s.pixel r c ^^ s.spritePixel x0 y0 (s.rowsInMemory n) r c) := by
  obtain ⟨hpix, -⟩ := s.drawRows_rowsInMemory x0 y0 n
  rw [State.drawRows_eq_ite, apply_ite (State.pixel · r c), State.raise_pixel, ite_self, hpix]

theorem State.reg_vf_drawRows :
    (s.SpriteHits x0 y0 (s.rowsInMemory n) → (State.drawRows x0 y0 n 0 s).reg vf = 1) ∧
    (¬ s.SpriteHits x0 y0 (s.rowsInMemory n) → (State.drawRows x0 y0 n 0 s).reg vf = s.reg vf) := by
  obtain ⟨-, hhit, hmiss, -⟩ := s.drawRows_rowsInMemory x0 y0 n
  rw [State.drawRows_eq_ite, apply_ite (State.reg · vf), State.raise_reg, ite_self]
  exact ⟨hhit, hmiss⟩

end

section
variable {s : State} {x0 y0 n : Nat}

theorem keepsBut_drawRows_of_rowsInMemory (h : s.rowsInMemory n = n) :
    KeepsBut [.regs, .fb] s (State.drawRows x0 y0 n 0 s) := by
  obtain ⟨-, -, -, hkeeps⟩ := s.drawRows_rowsInMemory x0 y0 n
  rwa [h] at hkeeps

theorem State.drawRows_halts (hrun : s.es = .running) (h : s.rowsInMemory n < n) :
    (State.drawRows x0 y0 n 0 s).es = .halted .memoryOutOfBounds := by
  obtain ⟨-, -, -, hkeeps⟩ := s.drawRows_rowsInMemory x0 y0 n
  have hes : (State.drawRows x0 y0 (s.rowsInMemory n) 0 s).es = s.es := hkeeps .es (by simp)
  obtain ⟨hhalted, -⟩ := State.raise_of_running .memoryOutOfBounds (hes.trans hrun)
  rw [State.drawRows_eq_ite, if_neg (Nat.ne_of_lt h), hhalted]

end

/-! ## One draw (R213) -/

section
variable {x y : RegNum} {n : Fin 16} {s t : State} (h : exec (.drw x y n) s = .next t)
include h

/-- The first rows with a byte are XORed into the display, whether or not the draw ends in its fault. -/
theorem pixel_exec_drw (r c : Nat) :
    t.pixel r c =
      (s.pixel r c ^^ s.spritePixel (spriteColumn (s.reg x)) (spriteRow (s.reg y)) (s.rowsInMemory n) r c) := by
  cases h
  exact State.pixel_drawRows (s.setFlag false) _ _ _ r c

/-- VF, cleared at the start, ends as the collision of the rows drawn. -/
theorem reg_vf_exec_drw :
    (s.SpriteHits (spriteColumn (s.reg x)) (spriteRow (s.reg y)) (s.rowsInMemory n) → t.reg 15 = 1) ∧
    (¬ s.SpriteHits (spriteColumn (s.reg x)) (spriteRow (s.reg y)) (s.rowsInMemory n) → t.reg 15 = 0) := by
  cases h
  obtain ⟨hhit, hmiss⟩ := State.reg_vf_drawRows (s.setFlag false) (spriteColumn (s.reg x)) (spriteRow (s.reg y)) n
  refine ⟨hhit, fun hno => (hmiss hno).trans ?_⟩
  rw [State.reg_setFlag, if_pos rfl]
  rfl

/-- When no sprite row is past memory, the draw writes the display and V registers only. -/
theorem keepsBut_exec_drw_of_rowsInMemory (hall : s.rowsInMemory n = n) : KeepsBut [.regs, .fb] s t := by
  cases h
  exact ((keepsBut_setReg s vf _).mono (by simp)).trans (keepsBut_drawRows_of_rowsInMemory (s := s.setFlag false) hall)

/-- A running engine halts when the draw reaches a row past memory. -/
theorem exec_drw_halts (hrun : s.es = .running) (hpast : s.rowsInMemory n < n) :
    t.es = .halted .memoryOutOfBounds := by
  cases h
  exact State.drawRows_halts (s := s.setFlag false) hrun hpast

end

/-- Settles O27: the cells and VF are those of the rows in memory; the frame and the end depend on whether that is all
of them. -/
theorem drawXorsTheSpriteAndReportsCollision : Obligations.DrawXorsTheSpriteAndReportsCollision := by
  rintro x y n s x0 y0 d rfl rfl rfl
  refine ⟨decodeWord_encode (i := .drw x y n) rfl, fun hrun => ?_⟩
  have hexec : exec (.drw x y n) s = .next _ := rfl
  obtain ⟨hhit, hmiss⟩ := reg_vf_exec_drw hexec
  refine ⟨_, hexec, pixel_exec_drw hexec, hhit, hmiss, regsBut_execDrw hexec, fun hall => ?complete,
    fun hpast => ⟨?halts, exec_sameBut hexec⟩⟩
  case complete => exact (keepsBut_exec_drw_of_rowsInMemory hexec hall).sameBut (exec_params hexec)
  case halts => exact exec_drw_halts hexec hrun hpast

/-! ## The same draw again (R214) -/

section
variable {x y : RegNum} {n : Fin 16} {s t : State} (h : exec (.drw x y n) s = .next t)
include h

theorem i_exec_drw : t.i = s.i := exec_keepsBut h .i (by simp [writtenBy])

/-- A draw writes neither I nor memory, so the sprite it drew is there to be drawn again. -/
theorem spritePixel_exec_drw : t.spritePixel = s.spritePixel := by
  have hbyte (a : Nat) : t.byte a = s.byte a := exec_sameBut h .mem (by simp [writtenBy]) a
  funext x0 y0 d r c
  rw [State.spritePixel, i_exec_drw h, hbyte, State.spritePixel]

theorem reg_vf_exec_drw_eq_one_iff :
    t.reg 15 = 1 ↔ s.SpriteHits (spriteColumn (s.reg x)) (spriteRow (s.reg y)) (s.rowsInMemory n) := by
  obtain ⟨hhit, hmiss⟩ := reg_vf_exec_drw h
  refine ⟨fun hone => ?_, hhit⟩
  by_contra hno
  rw [hmiss hno] at hone
  exact absurd hone (by decide)

end

/-- Settles O28: both draws XOR the same sprite from the same origin; a bit of the second meets a lit cell exactly where
it meets one that was off before the first. -/
theorem drawingTwiceRestoresTheDisplay : Obligations.DrawingTwiceRestoresTheDisplay := by
  intro x y n s t u hx hy hfit h1 h2
  have hregx : t.reg x = s.reg x := regsBut_execDrw h1 x (by simpa using hx)
  have hregy : t.reg y = s.reg y := regsBut_execDrw h1 y (by simpa using hy)
  have hrows : s.rowsInMemory n = n := State.rowsInMemory_of_fits hfit
  have hrows' : t.rowsInMemory n = n := State.rowsInMemory_of_fits (by rwa [i_exec_drw h1])
  have hpixel := pixel_exec_drw h2
  have hflag := reg_vf_exec_drw_eq_one_iff h2
  simp only [State.SpriteHits, spriteColumn, spriteRow, hregx, hregy, hrows, hrows', spritePixel_exec_drw h1,
    pixel_exec_drw h1] at hpixel hflag
  refine ⟨fun r c => ?_, hflag.trans (exists₂_congr fun r c => and_congr_right fun hbit => ?_)⟩
  · rw [hpixel, Bool.xor_assoc, Bool.xor_self, Bool.xor_false]
  · rw [hbit, Bool.xor_true, Bool.not_eq_true']

end Sys2Proof.Machine

/-! # Proofs: timers and keys (45_timers_and_keys.md)

The key skips (O29), the three timer instructions (O30), and the key wait with the press that ends it (O31). Each
instruction decodes by `decodeWord_encode`; the frames of the press are those of the three operations it is made of. -/

namespace Sys2Proof.Machine

/-! ## The key skips (R231, R232) -/

section
variable {x : RegNum} {s : State}

theorem exec_skp_of_key {k : Fin 16} (h : (s.reg x).toNat = k.val) :
    exec (.skp x) s = .next (s.skipIf (s.key k)) := by
  simp only [exec, execSkp, keyOperand_eq_some h]

theorem exec_sknp_of_key {k : Fin 16} (h : (s.reg x).toNat = k.val) :
    exec (.sknp x) s = .next (s.skipIf (!s.key k)) := by
  simp only [exec, execSknp, keyOperand_eq_some h]

theorem exec_skp_of_no_key (h : 15 < (s.reg x).toNat) : exec (.skp x) s = .next (s.raise .inputOutOfBounds) := by
  simp only [exec, execSkp, keyOperand_eq_none h]

theorem exec_sknp_of_no_key (h : 15 < (s.reg x).toNat) : exec (.sknp x) s = .next (s.raise .inputOutOfBounds) := by
  simp only [exec, execSknp, keyOperand_eq_none h]

end

/-- An instruction that only raises a fault halts a running engine and changes nothing else. -/
theorem exec_halts {i : Instr} {s : State} {f : FaultKind} (h : exec i s = .next (s.raise f)) (hrun : s.es = .running) :
    ∃ t, exec i s = .next t ∧ t.es = .halted f ∧ SameBut [.es, .dumps] s t := by
  obtain ⟨hes, -⟩ := State.raise_of_running f hrun
  exact ⟨_, h, hes, (keepsBut_raise s f).sameBut (State.raise_params s f)⟩

/-- Settles O29: with a key named each is `exec_skips` for its own test, with none both only raise. -/
theorem keySkipsTestOneKey : Obligations.KeySkipsTestOneKey := by
  intro x s
  refine ⟨decodeWord_encode (i := .skp x) rfl, decodeWord_encode (i := .sknp x) rfl, fun k hk => ⟨?skp, ?sknp⟩,
    fun hpast hrun => ⟨exec_halts (exec_skp_of_no_key hpast) hrun, exec_halts (exec_sknp_of_no_key hpast) hrun⟩⟩
  case skp => exact exec_skips (exec_skp_of_key hk) Iff.rfl
  case sknp =>
    have hnot : (!s.key k) = true ↔ ¬ s.key k = true := by rw [Bool.not_eq_true', Bool.not_eq_true]
    simpa only [ite_not] using exec_skips (exec_sknp_of_key hk) hnot

/-! ## The timer instructions (R233 to R235) -/

/-- Settles O30: each sets one component, and its row of `writtenBy` names nothing else. -/
theorem timerInstructionsMoveOneByte : Obligations.TimerInstructionsMoveOneByte := by
  intro x s
  refine ⟨decodeWord_encode (i := .ldVxDt x) rfl, decodeWord_encode (i := .ldDtVx x) rfl,
    decodeWord_encode (i := .ldStVx x) rfl, exec_writesRegister rfl, ?ldDtVx, ?ldStVx⟩
  case ldDtVx => exact ⟨_, rfl, rfl, exec_sameBut (i := .ldDtVx x) rfl⟩
  case ldStVx => exact ⟨_, rfl, rfl, exec_sameBut (i := .ldStVx x) rfl⟩

/-! ## The key wait and the press that ends it (R236, R277) -/

/-- A press of a key in 0..15 leaves that key pressed and no other key changed, in every engine state. -/
theorem State.key_pressKey (s : State) (k n : Fin 16) :
    (s.pressKey (k.val : Int)).key n = (decide (n = k) || s.key n) := by
  have hset : (s.setKey k true).key n = (decide (n = k) || s.key n) := by
    rw [State.key_setKey]
    by_cases hn : n = k <;> simp [hn]
  by_cases hb : ∃ r, s.es = .blockedOnKey r
  · obtain ⟨r, hr⟩ := hb
    rw [State.pressKey_of_blocked hr]
    exact hset
  · rw [State.pressKey_of_not_blocked (not_exists.mp hb)]
    exact hset

section
variable {s : State} {r : RegNum} (h : s.es = .blockedOnKey r) (k : Fin 16)
include h

theorem State.pressKey_es_of_blocked : (s.pressKey (k.val : Int)).es = .running := by
  rw [State.pressKey_of_blocked h]
  rfl

theorem State.reg_pressKey_of_blocked : ((s.pressKey (k.val : Int)).reg r).toNat = k.val := by
  rw [State.pressKey_of_blocked h, State.reg_setReg_same, BitVec.toNat_ofNat]
  omega

theorem regsBut_pressKey_of_blocked : RegsBut [r] s (s.pressKey (k.val : Int)) := by
  rw [State.pressKey_of_blocked h]
  exact regsBut_setReg ({ s with es := .running }.setKey k true) r _

/-- Of what a press may write, this one leaves the count of diagnostic requests. -/
theorem keepsBut_pressKey_of_blocked : KeepsBut [.es, .regs, .keys] s (s.pressKey (k.val : Int)) := by
  rw [State.pressKey_of_blocked h]
  intro c hc; cases c <;> simp_all [Comp.Kept]

end

/-- Settles O31: the wait is its row of `writtenBy`; the press happens in `s.begin`, which its event has left. -/
theorem keyWaitBlocksUntilAPress : Obligations.KeyWaitBlocksUntilAPress := by
  refine ⟨fun x s => ?wait, fun x k s rest hes hs => ?press⟩
  case wait => exact ⟨decodeWord_encode (i := .ldVxK x) rfl, _, rfl, rfl, exec_sameBut (i := .ldVxK x) rfl⟩
  case press =>
    have hnext : s.nextEvent = .pressKey (k.val : Int) := by rw [State.nextEvent, hs, List.headD_cons]
    have hb : s.begin.es = .blockedOnKey x := hes
    have hpress := keepsBut_pressKey_of_blocked hb k
    have hagenda : (s.begin.pressKey (k.val : Int)).agenda = rest :=
      (hpress .agenda (by simp)).trans (congrArg List.tail hs)
    have hframe : KeepsBut [.es, .regs, .keys, .agenda] s (s.begin.pressKey (k.val : Int)) :=
      ((keepsBut_begin s).mono (by simp)).trans (hpress.mono (by simp))
    exact ⟨_, step_of_nextEvent hnext, State.pressKey_es_of_blocked hb k, State.reg_pressKey_of_blocked hb k,
      regsBut_pressKey_of_blocked hb k, State.key_pressKey s.begin k, hagenda,
      hframe.sameBut (State.pressKey_params s.begin k)⟩

end Sys2Proof.Machine

/-! # Proofs: faults, the timer unit and the host's events (60_exceptions.md)

Taking a fault (O32), the fault each instruction may take (O33), what a halted block still does (O34); the timer unit
(O36, O49); a tick, alone (O37, O38) and with the steps it releases (O39); the key events (O40, O41) and the observations
(O45). An event happens in `s.begin`, the state it has left the agenda of. -/

namespace Sys2Proof.Machine

/-! ## Taking a fault (R255, R257) -/

/-- Settles O32, by the two laws of `raise`. -/
theorem raiseHaltsAndKeepsTheFirstFault : Obligations.RaiseHaltsAndKeepsTheFirstFault := by
  refine fun s f => ⟨fun hnot => ?_, fun g hg => State.raise_halted s f g hg⟩
  have hframe : SameBut [.es, .dumps] s (s.raise f) := (keepsBut_raise s f).sameBut (State.raise_params s f)
  rw [State.raise_not_halted s f hnot] at hframe ⊢
  exact ⟨rfl, rfl, hframe⟩

theorem es_mem_writtenBy {i : Instr} (h : Comp.es ∈ writtenBy i) :
    i = .ret ∨ (∃ x, i = .skp x ∨ i = .sknp x) ∨ (∃ x, i = .ldVxK x) ∨
      (∃ x y n, i = .drw x y n) ∨ ∃ x, i = .ldB x ∨ i = .ldMemVx x ∨ i = .ldVxMem x := by
  cases i <;> simp [writtenBy] at h ⊢

section
variable {s : State} (hrun : s.es = .running)
include hrun

/-- A running engine that halts by a raise has halted on the fault raised. -/
theorem State.eq_of_raise_es {f g : FaultKind} (h : (s.raise g).es = .halted f) : f = g := by
  obtain ⟨hes, -⟩ := State.raise_of_running g hrun
  exact EngineState.halted.inj (h.symm.trans hes)

theorem State.storeBytes_es_cases {bs : List Byte} (hne : bs ≠ []) (a : Nat) :
    (State.storeBytes bs a s).es = s.es ∨ (State.storeBytes bs a s).es = .halted .memoryOutOfBounds := by
  by_cases hfit : a + bs.length ≤ 4096
  · exact .inl (keepsBut_storeBytes_of_fits hfit .es (by simp))
  · exact .inr (State.storeBytes_halts hrun hne (by omega))

theorem State.loadRegs_es_cases {rs : List RegNum} (hne : rs ≠ []) (a : Nat) :
    (State.loadRegs rs a s).es = s.es ∨ (State.loadRegs rs a s).es = .halted .memoryOutOfBounds := by
  by_cases hfit : a + rs.length ≤ 4096
  · exact .inl (keepsBut_loadRegs_of_fits hfit .es (by simp))
  · exact .inr (State.loadRegs_halts hrun hne (by omega))

/-- An instruction that reads or writes memory at I leaves `es`, or finds an address past memory. -/
theorem exec_memoryAccess_es_cases {i : Instr} {t : State}
    (hi : (∃ x y n, i = .drw x y n) ∨ ∃ x, i = .ldB x ∨ i = .ldMemVx x ∨ i = .ldVxMem x) (h : exec i s = .next t) :
    t.es = s.es ∨ t.es = .halted .memoryOutOfBounds := by
  have hregs (x : RegNum) : regsUpTo x ≠ [] := List.ne_nil_of_length_eq_add_one (length_regsUpTo x)
  obtain ⟨x, y, n, rfl⟩ | ⟨x, rfl | rfl | rfl⟩ := hi
  · obtain hall | hpast := Nat.eq_or_lt_of_le (Nat.min_le_left n.val (4096 - s.i.toNat))
    · exact .inl (keepsBut_exec_drw_of_rowsInMemory h hall .es (by simp))
    · exact .inr (exec_drw_halts h hrun hpast)
  · cases h; exact State.storeBytes_es_cases hrun (List.cons_ne_nil _ _) _
  · cases h; exact State.storeBytes_es_cases hrun (List.map_eq_nil_iff.not.mpr (hregs x)) _
  · cases h; exact State.loadRegs_es_cases hrun (hregs x) _

end

/-- Settles O33: an instruction that halts the engine is one of the writers of `es`; each of them but the key wait has one
fault. -/
theorem eachInstructionHasOneFaultKind : Obligations.EachInstructionHasOneFaultKind := by
  intro i s t f hrun h hhalt
  have hes : t.es ≠ s.es := by rw [hhalt, hrun]; simp
  obtain rfl | ⟨x, hi⟩ | ⟨x, rfl⟩ | hi := es_mem_writtenBy (mem_writtenBy (c := .es) h hes)
  · obtain ⟨-, rfl⟩ | ⟨w, rest, -, rfl⟩ := exec_ret_cases h
    · exact .inl ⟨rfl, State.eq_of_raise_es hrun hhalt⟩
    · exact absurd rfl hes
  · obtain rfl | ⟨held, rfl⟩ := exec_keySkip_cases (hi.imp (⟨x, ·⟩) (⟨x, ·⟩)) h
    · exact .inr (.inl ⟨⟨x, hi⟩, State.eq_of_raise_es hrun hhalt⟩)
    · exact absurd (State.skipIf_es s held) hes
  · cases h; cases hhalt
  · have hmem := (exec_memoryAccess_es_cases hrun hi h).resolve_left hes
    exact .inr (.inr ⟨hi, EngineState.halted.inj (hhalt.symm.trans hmem)⟩)

/-! ## What the events that are no engine step write -/

theorem KeepsBut.refl (cs : List Comp) (s : State) : KeepsBut cs s s := fun c _ => by cases c <;> rfl

theorem keepsBut_timerStep (s : State) : KeepsBut [.dt, .st] s s.timerStep := by
  intro c hc; cases c <;> simp_all [Comp.Kept]

theorem keepsBut_setKey (s : State) (k : Fin 16) (b : Bool) : KeepsBut [.keys] s (s.setKey k b) := by
  intro c hc; cases c <;> simp_all [Comp.Kept]

theorem keepsBut_loaded (s : State) (bytes : List Byte) (address : Word) :
    KeepsBut [.mem, .pc, .cip] s (s.loaded bytes address) := by
  intro c hc; cases c <;> simp_all [Comp.Kept, State.loaded]

theorem keepsBut_execTick {elapsed : Rat} {order : List Bool} {s t : State} (h : execTick elapsed order s = .next t) :
    KeepsBut [.accI, .accT, .agenda] s t := by
  rw [execTick_eq h]
  intro c hc; cases c <;> simp_all [Comp.Kept]

/-- The frame of an event is what it writes in `s.begin`, and the agenda. -/
theorem KeepsBut.of_begin {cs ds : List Comp} {s t : State} (h : KeepsBut cs s.begin t) (hcs : cs ⊆ ds)
    (hagenda : Comp.agenda ∈ ds) : KeepsBut ds s t :=
  ((keepsBut_begin s).mono (by simpa using hagenda)).trans (h.mono hcs)

theorem State.nextEvent_of_agenda {s : State} {e : Event} {rest : List Event} (h : s.agenda = e :: rest) :
    s.nextEvent = e := by
  rw [State.nextEvent, h, List.headD_cons]

theorem State.begin_agenda_of_agenda {s : State} {e : Event} {rest : List Event} (h : s.agenda = e :: rest) :
    s.begin.agenda = rest :=
  congrArg List.tail h

/-! ## Key events (R277 to R279) -/

theorem State.pressKey_of_no_key {k : Int} (h : k < 0 ∨ 15 < k) (s : State) :
    s.pressKey k = s.raise .inputOutOfBounds := by
  simp only [State.pressKey, keyNumber_eq_none h]

theorem State.releaseKey_of_no_key {k : Int} (h : k < 0 ∨ 15 < k) (s : State) :
    s.releaseKey k = s.raise .inputOutOfBounds := by
  simp only [State.releaseKey, keyNumber_eq_none h]

theorem keepsBut_pressKey_of_not_blocked {s : State} (h : ∀ r, s.es ≠ .blockedOnKey r) (k : Fin 16) :
    KeepsBut [.keys] s (s.pressKey (k.val : Int)) := by
  rw [State.pressKey_of_not_blocked h]
  exact keepsBut_setKey s k true

theorem State.key_releaseKey (s : State) (k n : Fin 16) :
    (s.releaseKey (k.val : Int)).key n = (!decide (n = k) && s.key n) := by
  rw [State.releaseKey_natCast, State.key_setKey]
  by_cases hn : n = k <;> simp [hn]

theorem keepsBut_releaseKey_natCast (s : State) (k : Fin 16) : KeepsBut [.keys] s (s.releaseKey (k.val : Int)) := by
  rw [State.releaseKey_natCast]
  exact keepsBut_setKey s k false

/-- Settles O40: the press is what `pressKey` does to a blocked engine or to one that is not, the release one `setKey`. -/
theorem validKeyEventsSetOneKey : Obligations.ValidKeyEventsSetOneKey := by
  refine ⟨fun s k rest hs => ?press, fun s k rest hs => ?release⟩
  case press =>
    have hparams := State.pressKey_params s.begin (k.val : Int)
    have hagenda : (s.begin.pressKey (k.val : Int)).agenda = rest :=
      (keepsBut_pressKey s.begin k .agenda (by simp)).trans (State.begin_agenda_of_agenda hs)
    refine ⟨_, step_of_nextEvent (State.nextEvent_of_agenda hs), State.key_pressKey s.begin k, hagenda,
      fun r hr => ?_, fun hnot => ?_⟩
    · have hb : s.begin.es = .blockedOnKey r := hr
      exact ⟨State.pressKey_es_of_blocked hb k, State.reg_pressKey_of_blocked hb k, regsBut_pressKey_of_blocked hb k,
        ((keepsBut_pressKey_of_blocked hb k).of_begin (by simp) (by simp)).sameBut hparams⟩
    · have hb : ∀ r, s.begin.es ≠ .blockedOnKey r := hnot
      exact ((keepsBut_pressKey_of_not_blocked hb k).of_begin (by simp) (by simp)).sameBut hparams
  case release =>
    have hframe := keepsBut_releaseKey_natCast s.begin k
    have hagenda : (s.begin.releaseKey (k.val : Int)).agenda = rest :=
      (hframe .agenda (by simp)).trans (State.begin_agenda_of_agenda hs)
    exact ⟨_, step_of_nextEvent (State.nextEvent_of_agenda hs), State.key_releaseKey s.begin k, hagenda,
      (hframe.of_begin (by simp) (by simp)).sameBut (State.releaseKey_params s.begin k)⟩

/-- Settles O41: both events are the raise of `InputOutOfBounds`, whose two laws are O32. -/
theorem outOfRangeKeyEventsHalt : Obligations.OutOfRangeKeyEventsHalt := by
  intro s k rest hk hs
  have hstep : step s = .next (s.begin.raise .inputOutOfBounds) ∧ s.begin.agenda = rest := by
    obtain hs | hs := hs
    · rw [step_of_nextEvent (State.nextEvent_of_agenda hs), ← State.pressKey_of_no_key hk]
      exact ⟨rfl, State.begin_agenda_of_agenda hs⟩
    · rw [step_of_nextEvent (State.nextEvent_of_agenda hs), ← State.releaseKey_of_no_key hk]
      exact ⟨rfl, State.begin_agenda_of_agenda hs⟩
  obtain ⟨hstep, hagenda⟩ := hstep
  obtain ⟨hfirst, hlater⟩ := raiseHaltsAndKeepsTheFirstFault s.begin .inputOutOfBounds
  refine ⟨_, hstep, (State.raise_agenda _ _).trans hagenda, fun hnot => ?_, fun g hg => ?_⟩
  · obtain ⟨hes, hdumps, -⟩ := hfirst hnot
    exact ⟨hes, hdumps, ((keepsBut_raise s.begin _).of_begin (by simp) (by simp)).sameBut (State.raise_params _ _)⟩
  · rw [hlater g hg]
    exact (keepsBut_begin s).sameBut rfl

/-! ## A halted block (R258, R301) -/

theorem keepsBut_pressKey_of_halted {s : State} {f : FaultKind} (h : s.es = .halted f) (k : Int) :
    KeepsBut [.keys] s (s.pressKey k) := by
  obtain hk | ⟨n, rfl⟩ := keyNumber_cases k
  · simp only [State.pressKey, hk, State.raise_halted s _ f h]
    exact KeepsBut.refl _ s
  · exact keepsBut_pressKey_of_not_blocked (by simp [h]) n

theorem keepsBut_releaseKey_of_halted {s : State} {f : FaultKind} (h : s.es = .halted f) (k : Int) :
    KeepsBut [.keys] s (s.releaseKey k) := by
  obtain hk | ⟨n, rfl⟩ := keyNumber_cases k
  · simp only [State.releaseKey, hk, State.raise_halted s _ f h]
    exact KeepsBut.refl _ s
  · exact keepsBut_releaseKey_natCast s n

/-- A step of a halted block that is no reset is a load, or leaves memory, `pc` and `cip` too. -/
theorem step_of_halted_cases {s t : State} {f : FaultKind} (hes : s.es = .halted f) (h : step s = .next t)
    (hreset : s.nextEvent ≠ .reset) :
    KeepsBut [.keys, .dt, .st, .accI, .accT, .agenda] s t ∨
      ((∃ bytes address, s.nextEvent = .loadProgram bytes address) ∧ KeepsBut [.mem, .pc, .cip, .agenda] s t) := by
  have hnot : s.es ≠ .running := by simp [hes]
  have hbegin : s.begin.es = .halted f := hes
  obtain ⟨i, -, -, hrun, -⟩ | ⟨-, hrun, -⟩ | ⟨-, hrun, -⟩ | ⟨-, -, rfl⟩ | ⟨-, rfl⟩ | ⟨hr, -⟩ |
    ⟨bytes, address, hload, -, rfl⟩ | ⟨elapsed, order, -, -, htick⟩ | ⟨k, -, rfl⟩ | ⟨k, -, rfl⟩ := step_cases h
  · exact absurd hrun hnot
  · exact absurd hrun hnot
  · exact absurd hrun hnot
  · exact .inl ((keepsBut_begin s).mono (by simp))
  · exact .inl ((keepsBut_timerStep s.begin).of_begin (by simp) (by simp))
  · exact absurd hr hreset
  · exact .inr ⟨⟨bytes, address, hload⟩, (keepsBut_loaded s.begin bytes address).of_begin (by simp) (by simp)⟩
  · exact .inl ((keepsBut_execTick htick).of_begin (by simp) (by simp))
  · exact .inl ((keepsBut_pressKey_of_halted hbegin k).of_begin (by simp) (by simp))
  · exact .inl ((keepsBut_releaseKey_of_halted hbegin k).of_begin (by simp) (by simp))

/-- Settles O34, by the two ways a halted block steps (`step_of_halted_cases`). -/
theorem onlyResetLeavesHalted : Obligations.OnlyResetLeavesHalted := by
  intro s t f hes h hreset
  have hparams := stepsKeepTheParameters s t h
  obtain hkeeps | ⟨⟨bytes, address, hload⟩, hkeeps⟩ := step_of_halted_cases hes h hreset
  · exact ⟨(hkeeps.mono (by simp)).sameBut hparams, fun _ => hkeeps.sameBut hparams⟩
  · exact ⟨(hkeeps.mono (by simp)).sameBut hparams, fun hno => absurd hload (hno bytes address)⟩

/-! ## The timer unit (R271, R272, R275) -/

theorem countDown_toNat (b : Byte) : (countDown b).toNat = b.toNat - 1 := by
  have hb := b.isLt
  unfold countDown
  split
  · rw [BitVec.toNat_ofNat]; omega
  · omega

/-- Both timers are `n` lower, floored at 0, events have left the agenda, and nothing else has changed. -/
def CountsDown (n : Nat) (s t : State) : Prop :=
  t.dt.toNat = s.dt.toNat - n ∧ t.st.toNat = s.st.toNat - n ∧ KeepsBut [.dt, .st, .agenda] s t

theorem countsDown_refl (s : State) : CountsDown 0 s s := ⟨rfl, rfl, KeepsBut.refl _ s⟩

theorem countsDown_begin (s : State) : CountsDown 0 s s.begin := ⟨rfl, rfl, (keepsBut_begin s).mono (by simp)⟩

theorem countsDown_timerStep (s : State) : CountsDown 1 s s.begin.timerStep :=
  ⟨countDown_toNat s.dt, countDown_toNat s.st, (keepsBut_timerStep s.begin).of_begin (by simp) (by simp)⟩

theorem CountsDown.trans {m n : Nat} {s t u : State} (hst : CountsDown m s t) (htu : CountsDown n t u) :
    CountsDown (m + n) s u := by
  obtain ⟨hdt, hst', hkeeps⟩ := hst
  obtain ⟨hdt', hst'', hkeeps'⟩ := htu
  exact ⟨by omega, by omega, hkeeps.trans hkeeps'⟩

theorem CountsDown.es {n : Nat} {s t : State} (h : CountsDown n s t) : t.es = s.es := by
  obtain ⟨-, -, hkeeps⟩ := h
  exact hkeeps .es (by simp)

/-- Settles O36: the step is one count down. -/
theorem timerStepCountsBothDown : Obligations.TimerStepCountsBothDown := by
  intro s rest hs
  obtain ⟨hdt, hst, hkeeps⟩ := countsDown_timerStep s
  exact ⟨_, step_of_nextEvent (State.nextEvent_of_agenda hs), hdt, hst, State.begin_agenda_of_agenda hs,
    hkeeps.sameBut rfl⟩

theorem KeepsBut.timers_le {cs : List Comp} {s t : State} (h : KeepsBut cs s t)
    (hcs : ∀ c ∈ [Comp.dt, .st], c ∉ cs) : t.dt.toNat ≤ s.dt.toNat ∧ t.st.toNat ≤ s.st.toNat := by
  have hdt : t.dt = s.dt := h .dt (hcs _ (by simp))
  have hst : t.st = s.st := h .st (hcs _ (by simp))
  rw [hdt, hst]
  exact ⟨le_rfl, le_rfl⟩

/-- A step that executes no instruction raises no timer. -/
theorem step_timers_cases {s t : State} (h : step s = .next t) :
    (∃ i, s.currentInstr = some i ∧ exec i s.begin.fetched = .next t) ∨
      (t.dt.toNat ≤ s.dt.toNat ∧ t.st.toNat ≤ s.st.toNat) := by
  obtain ⟨i, hi, -, -, -, hexec⟩ | ⟨-, -, -, rfl⟩ | ⟨-, -, -, rfl⟩ | ⟨-, -, rfl⟩ | ⟨-, rfl⟩ | ⟨-, rfl⟩ |
    ⟨bytes, address, -, -, rfl⟩ | ⟨elapsed, order, -, -, htick⟩ | ⟨k, -, rfl⟩ | ⟨k, -, rfl⟩ := step_cases h
  · exact .inl ⟨i, hi, hexec⟩
  · exact .inr ((keepsBut_fetchFault s.begin).timers_le (by simp))
  · exact .inr ((keepsBut_raise s.begin.fetched _).timers_le (by simp))
  · exact .inr ((keepsBut_begin s).timers_le (by simp))
  · obtain ⟨hdt, hst, -⟩ := countsDown_timerStep s
    exact .inr ⟨by omega, by omega⟩
  · exact .inr ⟨Nat.zero_le _, Nat.zero_le _⟩
  · exact .inr ((keepsBut_loaded s.begin bytes address).timers_le (by simp))
  · exact .inr ((keepsBut_execTick htick).timers_le (by simp))
  · exact .inr ((keepsBut_pressKey s.begin k).timers_le (by simp))
  · exact .inr ((keepsBut_releaseKey s.begin k).timers_le (by simp))

/-- Settles O49: only an instruction can raise a timer, and each timer has one instruction that writes it. -/
theorem timersRiseOnlyByTheirInstruction : Obligations.TimersRiseOnlyByTheirInstruction := by
  intro s t h
  obtain ⟨i, hi, hexec⟩ | ⟨hdt, hst⟩ := step_timers_cases h
  · rw [hi]
    refine ⟨fun hlt => ?_, fun hlt => ?_⟩
    · have hne : t.dt ≠ s.dt := fun he => Nat.lt_irrefl _ (he ▸ hlt)
      obtain ⟨x, rfl⟩ := dt_mem_writtenBy (mem_writtenBy hexec hne)
      exact ⟨x, rfl⟩
    · have hne : t.st ≠ s.st := fun he => Nat.lt_irrefl _ (he ▸ hlt)
      obtain ⟨x, rfl⟩ := st_mem_writtenBy (mem_writtenBy hexec hne)
      exact ⟨x, rfl⟩
  · exact ⟨fun hlt => absurd hlt (Nat.not_lt.mpr hdt), fun hlt => absurd hlt (Nat.not_lt.mpr hst)⟩

/-! ## A tick (R273, R274) -/

/-- The time in an accumulator is that of `n` whole periods and a rest of less than one. -/
def SplitsInto (rate acc : Rat) (n : Nat) (rest : Rat) : Prop := acc = n / rate + rest ∧ 0 ≤ rest ∧ rest < 1 / rate

theorem splitsInto_periods_remainder {rate acc : Rat} (hrate : 0 < rate) (hacc : 0 ≤ acc) :
    SplitsInto rate acc (periods rate acc) (remainder rate acc) :=
  ⟨(add_sub_cancel _ _).symm, remainder_bounds hrate hacc⟩

/-- The steps a tick releases under `order`. -/
def State.released (s : State) (elapsed : Rat) (order : List Bool) : List Event :=
  mergeSteps order (periods s.params.ips (s.accI + elapsed)) (periods 60 (s.accT + elapsed))

theorem State.released_spec (s : State) (elapsed : Rat) (order : List Bool) :
    (∀ e ∈ s.released elapsed order, e = .engineStep ∨ e = .timerStep) ∧
      (s.released elapsed order).count .engineStep = periods s.params.ips (s.accI + elapsed) ∧
      (s.released elapsed order).count .timerStep = periods 60 (s.accT + elapsed) :=
  mergeSteps_spec order _ _

/-- The state a tick of non-negative time leaves. -/
def State.ticked (s : State) (elapsed : Rat) (order : List Bool) : State :=
  { s with
    accI := remainder s.params.ips (s.accI + elapsed)
    accT := remainder 60 (s.accT + elapsed)
    agenda := s.released elapsed order ++ s.agenda }

theorem execTick_of_neg {elapsed : Rat} (h : elapsed < 0) (order : List Bool) (s : State) :
    execTick elapsed order s = .refused .negativeElapsed :=
  if_pos h

theorem execTick_of_nonneg {elapsed : Rat} (h : 0 ≤ elapsed) (order : List Bool) (s : State) :
    execTick elapsed order s = .next (s.ticked elapsed order) :=
  if_neg (not_lt.mpr h)

section
variable {s : State} {elapsed : Rat} {order : List Bool} {rest : List Event}

theorem step_tick_of_nonneg (hs : s.agenda = .tick elapsed order :: rest) (he : 0 ≤ elapsed) :
    step s = .next (s.begin.ticked elapsed order) ∧
      (s.begin.ticked elapsed order).agenda = s.released elapsed order ++ rest :=
  ⟨(step_of_nextEvent (State.nextEvent_of_agenda hs)).trans (execTick_of_nonneg he order _),
    congrArg (s.released elapsed order ++ ·) (State.begin_agenda_of_agenda hs)⟩

/-- A tick consumes the periods of the steps it releases, and leaves less than one period in each accumulator. -/
theorem ticked_accumulators (he : 0 ≤ elapsed) (hI : 0 ≤ s.accI) (hT : 0 ≤ s.accT) :
    SplitsInto s.params.ips (s.accI + elapsed) ((s.released elapsed order).count .engineStep)
      (s.ticked elapsed order).accI ∧
    SplitsInto 60 (s.accT + elapsed) ((s.released elapsed order).count .timerStep) (s.ticked elapsed order).accT := by
  obtain ⟨-, hcountI, hcountT⟩ := s.released_spec elapsed order
  rw [hcountI, hcountT]
  exact ⟨splitsInto_periods_remainder s.params.ips_pos (add_nonneg hI he),
    splitsInto_periods_remainder (by norm_num) (add_nonneg hT he)⟩

end

/-- Settles O37: the tick releases a merge (`mergeSteps_spec`) and leaves the remainders. -/
theorem tickReleasesTheStepsThatFellDue : Obligations.TickReleasesTheStepsThatFellDue := by
  intro s elapsed order rest hs
  refine ⟨fun hneg => (step_of_nextEvent (State.nextEvent_of_agenda hs)).trans (execTick_of_neg hneg order _),
    fun he hI hT => ?_⟩
  obtain ⟨hstep, hagenda⟩ := step_tick_of_nonneg hs he
  obtain ⟨hkinds, -, -⟩ := s.released_spec elapsed order
  obtain ⟨⟨hI, hI0, hI1⟩, hT, hT0, hT1⟩ := ticked_accumulators (s := s.begin) (order := order) he hI hT
  exact ⟨_, _, hstep, hagenda, hkinds, hI, hI0, hI1, hT, hT0, hT1,
    ((keepsBut_execTick (execTick_of_nonneg he order s.begin)).of_begin (by simp) (by simp)).sameBut rfl⟩

/-- A list is what a tick releases under some order exactly when it is a merge of the steps that fell due. -/
theorem exists_released_iff {s : State} {elapsed : Rat} {released : List Event} (he : 0 ≤ elapsed) (hI : 0 ≤ s.accI)
    (hT : 0 ≤ s.accT) :
    (∃ order, s.released elapsed order = released) ↔
      (∀ e ∈ released, e = .engineStep ∨ e = .timerStep) ∧
        (released.count .engineStep / s.params.ips ≤ s.accI + elapsed ∧
          s.accI + elapsed < (released.count .engineStep + 1) / s.params.ips) ∧
        (released.count .timerStep / 60 ≤ s.accT + elapsed ∧
          s.accT + elapsed < (released.count .timerStep + 1) / 60) := by
  rw [← periods_eq_iff s.params.ips_pos (add_nonneg hI he), ← periods_eq_iff (by norm_num) (add_nonneg hT he),
    eq_comm (a := periods s.params.ips _), eq_comm (a := periods 60 _)]
  exact exists_mergeSteps_iff

/-- Settles O38: the step puts on the agenda what the tick releases under its order. -/
theorem everyMergeOfATickIsAdmitted : Obligations.EveryMergeOfATickIsAdmitted := by
  intro s elapsed rest released he hI hT
  rw [← exists_released_iff he hI hT]
  refine exists_congr fun order => ?_
  obtain ⟨hstep, hagenda⟩ :=
    step_tick_of_nonneg (s := { s with agenda := .tick elapsed order :: rest }) (order := order) rfl he
  constructor
  · rintro rfl
    exact ⟨_, hstep, hagenda⟩
  · rintro ⟨t, ht, htagenda⟩
    obtain rfl := Host.Outcome.next.inj (hstep.symm.trans ht)
    exact List.append_cancel_right (hagenda.symm.trans htagenda)

/-! ## A whole tick of a stopped engine (R127, R128, R272) -/

/-- A run of one step more begins with that step. -/
theorem run_succ_of_step {M : Host.Core} {s t : M.State} (k : Nat) (h : M.step s = .next t) :
    M.run (k + 1) s = M.run k t := by
  simp only [Host.Core.run, h]

/-- A step that a tick released counts the timers of a stopped engine down if it is a timer step, else does nothing. -/
theorem step_of_stopped {s : State} {e : Event} {rest : List Event} (hes : s.es ≠ .running)
    (he : e = .engineStep ∨ e = .timerStep) (hs : s.agenda = e :: rest) :
    ∃ t, step s = .next t ∧ t.agenda = rest ∧ CountsDown ([e].count .timerStep) s t := by
  have hrest := State.begin_agenda_of_agenda hs
  have hstep := step_of_nextEvent (State.nextEvent_of_agenda hs)
  obtain rfl | rfl := he
  · exact ⟨_, hstep.trans (engineStep_of_not_running (s := s.begin) hes), hrest, countsDown_begin s⟩
  · exact ⟨_, hstep, hrest, countsDown_timerStep s⟩

/-- Running the steps a tick released counts the timers of a stopped engine down by the timer steps among them. -/
theorem run_of_stopped {rest : List Event} (released : List Event)
    (hkinds : ∀ e ∈ released, e = .engineStep ∨ e = .timerStep) : ∀ s : State, s.es ≠ .running →
    s.agenda = released ++ rest → ∃ t, Host.Core.run Sys2Proof.core released.length s = .next t ∧ t.agenda = rest ∧
      CountsDown (released.count .timerStep) s t := by
  induction released with
  | nil => exact fun s _ hs => ⟨s, rfl, hs, countsDown_refl s⟩
  | cons e released ih =>
    intro s hes hs
    rw [List.forall_mem_cons] at hkinds
    obtain ⟨he, hkinds⟩ := hkinds
    obtain ⟨u, hstep, hu, hsu⟩ := step_of_stopped hes he hs
    obtain ⟨t, hrun, ht, hut⟩ := ih hkinds u (by rwa [hsu.es]) hu
    refine ⟨t, (run_succ_of_step (M := Sys2Proof.core) _ hstep).trans hrun, ht, ?_⟩
    rw [← List.singleton_append, List.count_append]
    exact hsu.trans hut

/-- A tick releases engine and timer steps only, so its length is the two counts together. -/
theorem length_released {released : List Event} (hkinds : ∀ e ∈ released, e = .engineStep ∨ e = .timerStep) :
    released.length = released.count .engineStep + released.count .timerStep := by
  rw [List.length_eq_countP_add_countP (· == Event.engineStep)]
  refine congrArg (released.count .engineStep + ·) (List.countP_congr fun e he => ?_)
  obtain rfl | rfl := hkinds e he <;> decide

/-- Settles O39: the tick leaves the engine stopped with the released steps before `rest`, and running them only counts
the timers down. -/
theorem tickOfAStoppedEngineOnlyCountsTimers : Obligations.TickOfAStoppedEngineOnlyCountsTimers := by
  intro s elapsed order rest hes hs he hI hT
  obtain ⟨hstep, hagenda⟩ := step_tick_of_nonneg hs he
  obtain ⟨hkinds, -, -⟩ := s.released_spec elapsed order
  obtain ⟨t, hrun, ht, hdt, hst, hkeeps⟩ := run_of_stopped _ hkinds (s.begin.ticked elapsed order) hes hagenda
  have hwhole : Host.Core.run Sys2Proof.core
      (1 + (s.released elapsed order).count .engineStep + (s.released elapsed order).count .timerStep) s = .next t := by
    rw [Nat.add_assoc, ← length_released hkinds, Nat.add_comm]
    exact (run_succ_of_step (M := Sys2Proof.core) _ hstep).trans hrun
  have haccI : t.accI = (s.begin.ticked elapsed order).accI := hkeeps .accI (by simp)
  have haccT : t.accT = (s.begin.ticked elapsed order).accT := hkeeps .accT (by simp)
  have hframe : KeepsBut [.dt, .st, .accI, .accT, .agenda] s t :=
    ((keepsBut_execTick (execTick_of_nonneg he order s.begin)).of_begin (by simp) (by simp)).trans
      (hkeeps.mono (by simp))
  obtain ⟨hI, hT⟩ := ticked_accumulators (s := s.begin) (order := order) he hI hT
  rw [← haccI] at hI
  rw [← haccT] at hT
  obtain ⟨hI, hI0, hI1⟩ := hI
  obtain ⟨hT, hT0, hT1⟩ := hT
  exact ⟨_, _, t, hwhole, hI, hI0, hI1, hT, hT0, hT1, hdt, hst, ht, hframe.sameBut (hframe .params (by simp))⟩

/-! ## Observations (R282 to R286) -/

/-- Settles O45: inside the grid `pixel` is the cell, and the dump is a list over all addresses. -/
theorem observationsReadTheState : Obligations.ObservationsReadTheState := by
  intro s
  refine ⟨fun r c hr hc => ?_, decide_eq_true_iff, rfl, rfl, ?_, fun a ha => ?_⟩
  · rw [State.pixel, dif_pos ⟨hr, hc⟩]
    rfl
  · rw [State.dumpDiagnostics, List.length_map, List.length_range]
  · rw [State.dumpDiagnostics, List.getElem?_map, List.getElem?_range ha, Option.map_some]

end Sys2Proof.Machine

/-! # Proofs: reset and the refusals (70_reset_and_hazards.md)

The load at any address (O42), the reset event (O43), and the events that stop the model (O11). -/

namespace Sys2Proof.Machine

/-! ## The program load (R305, R306) -/

/-- Settles O42: the fitting load is `State.loaded`, the other is refused. -/
theorem loadCopiesTheImageOrIsRefused : Obligations.LoadCopiesTheImageOrIsRefused := by
  intro s bytes address rest hs
  refine ⟨fun hfit => ?_, step_loadProgram_of_too_long hs⟩
  exact ⟨_, step_loadProgram_of_fits hs hfit, State.loaded_pc _ bytes address, State.loaded_cip _ bytes address,
    State.loaded_agenda _ bytes address, State.byte_loaded_image _ bytes address,
    State.byte_loaded_outside _ bytes address, State.loaded_sameBut s bytes address rest⟩

/-! ## The reset event (R300, R301) -/

/-- Settles O43: every component of R20 reads as in `resetWith` of the parameters of the state (O44). -/
theorem resetEventGivesTheResetState : Obligations.ResetEventGivesTheResetState := by
  intro s rest hs
  exact ⟨_, step_of_agenda hs, resetWith_reg s.params, rfl, rfl, rfl, rfl, rfl, rfl, rfl, resetWith_pixel s.params,
    resetWith_key s.params, rfl, rfl, resetByte_font s.params, resetByte_outside s.params, rfl, rfl, rfl⟩

/-! ## What stops the model (R273, R306) -/

theorem runInstruction_next (s : State) : ∃ t, runInstruction s = .next t := by
  cases hw : s.fetchWord with
  | none => exact ⟨_, runInstruction_of_none hw⟩
  | some w =>
    cases hd : decodeWord w with
    | error e => exact ⟨_, runInstruction_of_error hw hd⟩
    | ok i =>
      rw [runInstruction_of_ok hw hd]
      exact exec_next i s.fetched

theorem engineStep_next (s : State) : ∃ t, engineStep s = .next t := by
  by_cases hrun : s.es = .running
  · rw [engineStep_of_running hrun]
    exact runInstruction_next s
  · exact ⟨s, engineStep_of_not_running hrun⟩

/-- Settles O11, by the next event: an engine step always answers a next state, a load and a tick do unless the spec has
them refused, and no other event has a case that is refused. -/
theorem onlyRefusedHostEventsStop : Obligations.OnlyRefusedHostEventsStop := by
  intro s
  cases he : s.nextEvent with
  | engineStep =>
    rw [step_of_nextEvent he]
    exact .inl (engineStep_next s.begin)
  | loadProgram bytes address =>
    obtain hfit | hlong := le_or_gt (address.toNat + bytes.length) 4096
    · exact .inl ⟨_, (step_of_nextEvent he).trans (execLoadProgram_of_fits hfit s.begin)⟩
    · have hrefused := (step_of_nextEvent he).trans (execLoadProgram_of_too_long hlong s.begin)
      exact .inr (.inl ⟨bytes, address, rfl, hlong, hrefused⟩)
  | tick elapsed order =>
    obtain hneg | hnonneg := lt_or_ge elapsed 0
    · have hrefused := (step_of_nextEvent he).trans (execTick_of_neg hneg order s.begin)
      exact .inr (.inr ⟨elapsed, order, rfl, hneg, hrefused⟩)
    · exact .inl ⟨_, (step_of_nextEvent he).trans (execTick_of_nonneg hnonneg order s.begin)⟩
  | timerStep => exact .inl ⟨_, step_of_nextEvent he⟩
  | reset => exact .inl ⟨_, step_of_nextEvent he⟩
  | pressKey k => exact .inl ⟨_, step_of_nextEvent he⟩
  | releaseKey k => exact .inl ⟨_, step_of_nextEvent he⟩

end Sys2Proof.Machine
